-- ==== Sys2Proof/Word.lean ====
section
/-! DEFINITION. The word types of the block: bus words, bus addresses, operand registers and their
numbers (spec 00_scope.md R6, R7; 10_state.md R21; 20_memory.md R60). -/

namespace Sys2Proof

/-- A 32-bit bus word (R60); a command is one such word (R90). -/
abbrev Word := BitVec 32

/-- A byte address inside the block's 4 KiB window (R60). -/
abbrev Addr := BitVec 12

/-- The contents of one operand register: an unsigned integer below `2^576` (R21). -/
abbrev Operand := BitVec 576

/-- The number of an operand register, `x[0]` to `x[15]` (R21). -/
abbrev Reg := Fin 16

/-- The operand register file (R21). -/
abbrev RegFile := Vector Operand 16

end Sys2Proof
end

