-- ==== Sys2Proof/Config.lean ====
section
/-! DEFINITION. What an implementation of the block fixes, and the free values: the two OPEN
parameters of the spec (`LIMB_BITS` and `LAT`, 00_scope.md R6; 92_eei_decisions.md D6, D28) and the
contents of the engine's unreadable working storage (10_state.md R34). Every value here is an opaque
constant: no proof can see what it is. -/

namespace Sys2Proof

/-- The limb widths an implementation may have (R6): `LIMB_BITS` is one of 8, 16, 32, 64. -/
inductive LimbBits where
  | b8 | b16 | b32 | b64
  deriving DecidableEq, Repr, Inhabited

/-- `LIMB_BITS` as a number (R6). -/
def LimbBits.toNat : LimbBits → Nat
  | .b8 => 8
  | .b16 => 16
  | .b32 => 32
  | .b64 => 64

/-- `W521 = LIMB_BITS * ceil(528 / LIMB_BITS)` (R6). -/
def LimbBits.w521 (l : LimbBits) : Nat := l.toNat * ((528 + l.toNat - 1) / l.toNat)

/-- The parameters of one implementation of the block (R6). A state carries them so that a machine
with given parameters can be written down and run; nothing the machine does changes them. -/
structure Params where
  /-- `LIMB_BITS` (R6, reported in PARAM, R28). -/
  limbBits : LimbBits
  /-- `LAT(OPC, MSEL) - 1` at index `4*OPC + MSEL`, 0 past the end of the list: every finite table of
  latencies `>= 1` that depends on OPC and MSEL only can be written so (R330). -/
  latency : List Nat
  deriving DecidableEq, Repr, Inhabited

/-- A point in the engine's working storage, in up to four coordinates (R34). -/
structure HiddenPoint where
  c0 : Operand
  c1 : Operand
  c2 : Operand
  c3 : Operand
  deriving DecidableEq, Repr, Inhabited

/-- The engine's hidden working storage (R34): the ladder's four values and swap bit, the scalar
engines' accumulator and candidate points, a loop counter, the copy of the scalar, and partial
products. The spec names these and gives no widths (DESIGN CHOICE, log 4). -/
structure Hidden where
  ladderX2 : Operand
  ladderZ2 : Operand
  ladderX3 : Operand
  ladderZ3 : Operand
  ladderSwap : Bool
  accumulator : HiddenPoint
  candidate : HiddenPoint
  loopCounter : BitVec 10
  scalarCopy : Operand
  partialProduct : BitVec 1152
  deriving DecidableEq, Repr, Inhabited

/-- The all-zero point of the working storage. -/
def HiddenPoint.zeroed : HiddenPoint := ⟨0, 0, 0, 0⟩

/-- The working storage after a completion or a reset: all of it zero (R34). -/
def Hidden.zeroed : Hidden :=
  ⟨0, 0, 0, 0, false, HiddenPoint.zeroed, HiddenPoint.zeroed, 0, 0, 0⟩

/-- The parameters of the block at hand: OPEN in the spec (R6, D6, D28). -/
opaque Config.params : Params

/-- `LAT - 1` of EDSMUL_VT as a function of the limb width and the scalar's 256 bits: OPEN, and the
one latency that may depend on operand data (R330). -/
opaque Config.edsmulVtLatency : LimbBits → BitVec 256 → Nat

/-- What the working storage holds while a command is in flight: any value (R34; row 24 of
93_implementation_defined.md), given anew at each count from the in-flight command and the operands. -/
opaque Config.workingStorage : Nat → Word → RegFile → Hidden

end Sys2Proof
end

