-- ==== Sys2Proof/Syntax.lean ====
section
/-! DEFINITION. The block's commands as data: one constructor of `Instr` per row of
spec/opcode_table.json (30_encoding.md R99), with the fields the command uses and no ignored field
(R98), and the names of the six interface errors (60_exceptions.md R281). -/

namespace Sys2Proof

/-- The modulus and width selector MSEL (30_encoding.md R92): the values 0, 1, 2, 3 in this order. -/
inductive Msel where
  | f25519 | l25519 | f521 | q521
  deriving DecidableEq, Repr

/-- The second operand of a command that accepts the B bit (R91): the ROM base point (B = 1, RS2
ignored) or the register or group RS2 names (B = 0). -/
inductive PointSrc where
  | base
  | reg (rs2 : Reg)
  deriving DecidableEq, Repr

/-- The 19 commands (R99). A register that begins a group (R96) is written by its first register. -/
inductive Instr where
  /-- 47_control.md R270 -/
  | nop
  /-- 40_limb_adder_subtractor.md R130 -/
  | add (m : Msel) (rd rs1 rs2 : Reg)
  /-- 40_limb_adder_subtractor.md R131 -/
  | sub (m : Msel) (rd rs1 rs2 : Reg)
  /-- 40_limb_adder_subtractor.md R132 -/
  | rquick (m : Msel) (rd rs1 : Reg)
  /-- 40_limb_adder_subtractor.md R133 -/
  | madd (m : Msel) (rd rs1 rs2 : Reg)
  /-- 40_limb_adder_subtractor.md R134 -/
  | msub (m : Msel) (rd rs1 rs2 : Reg)
  /-- 41_montgomery_multiplier.md R150; `rd` begins a pair -/
  | mul (m : Msel) (rd rs1 rs2 : Reg)
  /-- 41_montgomery_multiplier.md R151 -/
  | mmul (m : Msel) (rd rs1 rs2 : Reg)
  /-- 41_montgomery_multiplier.md R152 -/
  | minv (m : Msel) (rd rs1 : Reg)
  /-- 42_reduction.md R170; `rs1` begins a pair -/
  | fred (m : Msel) (rd rs1 : Reg)
  /-- 42_reduction.md R171; `rs1` begins a pair -/
  | bred (m : Msel) (rd rs1 : Reg)
  /-- 43_curve25519_ladder.md R190; `rs1` the scalar, `u` the u-coordinate -/
  | ladder (rd rs1 : Reg) (u : PointSrc)
  /-- 44_ed25519_point.md R210; `rd`, `rs1` extended points -/
  | eddbl (rd rs1 : Reg)
  /-- 44_ed25519_point.md R211; `rd`, `rs1`, `rs2` extended points -/
  | edadd (rd rs1 rs2 : Reg)
  /-- 45_p521_point.md R230; `rd`, `rs1` Jacobian points -/
  | jdbl (rd rs1 : Reg)
  /-- 45_p521_point.md R231; `rd`, `rs1` Jacobian points, `rs2` an affine point -/
  | jadd (rd rs1 rs2 : Reg)
  /-- 46_scalar_mult_engine.md R250; `rd` an affine point, `rs1` the scalar, `p` an affine point -/
  | smul521 (rd rs1 : Reg) (p : PointSrc)
  /-- 46_scalar_mult_engine.md R251; `rd` an extended point, `rs1` the scalar, `p` an extended point -/
  | edsmulCt (rd rs1 : Reg) (p : PointSrc)
  /-- 46_scalar_mult_engine.md R252; operands as EDSMUL_CT -/
  | edsmulVt (rd rs1 : Reg) (p : PointSrc)
  deriving DecidableEq, Repr

/-- The commands' names, one per row of the opcode map (R99). -/
inductive Opcode where
  | nop
  | add | sub | rquick | madd | msub
  | mul | mmul | minv
  | fred | bred
  | ladder
  | eddbl | edadd
  | jdbl | jadd
  | smul521 | edsmulCt | edsmulVt
  deriving DecidableEq, Repr

/-- The pseudo-instruction `MSQR.m rd, rs` (30_encoding.md R102). -/
def Instr.msqr (m : Msel) (rd rs : Reg) : Instr := .mmul m rd rs rs

/-- The pseudo-instruction `MDBL.m rd, rs` (30_encoding.md R102). -/
def Instr.mdbl (m : Msel) (rd rs : Reg) : Instr := .madd m rd rs rs

/-- The six interface errors (60_exceptions.md R281). The first four are found by the issue check,
the last two by a bus write while BUSY. -/
inductive ErrCode where
  | illegalOpcode
  | reservedField
  | illegalMsel
  | regRange
  | cmdWhileBusy
  | rfWriteWhileBusy
  deriving DecidableEq, Repr

end Sys2Proof
end

