-- ==== Sys2Proof/WellFormed.lean ====
section
/-! DEFINITION. Which terms of `Instr` are commands: the MSEL column and the range column of the
opcode map (30_encoding.md R99), that is the conditions of 60_exceptions.md R284 and R285. A term that
fails one of these has no command word. -/

namespace Sys2Proof

/-- A pair or an affine point begins at register 14 or below (R285). -/
def Reg.beginsPair (r : Reg) : Bool := r.val ≤ 14

/-- A Jacobian point begins at register 13 or below (R285). -/
def Reg.beginsJac (r : Reg) : Bool := r.val ≤ 13

/-- An extended point begins at register 12 or below (R285). -/
def Reg.beginsExt (r : Reg) : Bool := r.val ≤ 12

/-- A base-point operand has no range; an affine point in registers has that of a pair (R285). -/
def PointSrc.affOk : PointSrc → Bool
  | .base => true
  | .reg r => Reg.beginsPair r

/-- A base-point operand has no range; an extended point in registers has its own (R285). -/
def PointSrc.extOk : PointSrc → Bool
  | .base => true
  | .reg r => Reg.beginsExt r

/-- The field primes: the MSEL values FRED accepts (R284). -/
def Msel.isField : Msel → Bool
  | .f25519 => true
  | .l25519 => false
  | .f521 => true
  | .q521 => false

/-- The group orders: the MSEL values BRED accepts (R284). -/
def Msel.isOrder : Msel → Bool
  | .f25519 => false
  | .l25519 => true
  | .f521 => false
  | .q521 => true

/-- The conditions of R99's MSEL and range columns. -/
def Instr.wellFormed : Instr → Bool
  | .nop => true
  | .add _ _ _ _ => true
  | .sub _ _ _ _ => true
  | .rquick _ _ _ => true
  | .madd _ _ _ _ => true
  | .msub _ _ _ _ => true
  | .mul _ rd _ _ => Reg.beginsPair rd
  | .mmul _ _ _ _ => true
  | .minv _ _ _ => true
  | .fred m _ rs1 => Msel.isField m && Reg.beginsPair rs1
  | .bred m _ rs1 => Msel.isOrder m && Reg.beginsPair rs1
  | .ladder _ _ _ => true
  | .eddbl rd rs1 => Reg.beginsExt rd && Reg.beginsExt rs1
  | .edadd rd rs1 rs2 => Reg.beginsExt rd && Reg.beginsExt rs1 && Reg.beginsExt rs2
  | .jdbl rd rs1 => Reg.beginsJac rd && Reg.beginsJac rs1
  | .jadd rd rs1 rs2 => Reg.beginsJac rd && Reg.beginsJac rs1 && Reg.beginsPair rs2
  | .smul521 rd _ p => Reg.beginsPair rd && PointSrc.affOk p
  | .edsmulCt rd _ p => Reg.beginsExt rd && PointSrc.extOk p
  | .edsmulVt rd _ p => Reg.beginsExt rd && PointSrc.extOk p

end Sys2Proof
end

