-- ==== Sys2Proof/Decode.lean ====
section
/-! DEFINITION. The command word (30_encoding.md R90–R100): its fields, the opcode map, the issue
check (60_exceptions.md R291), the decoder, which rejects by the error's name, and the encoder. -/

namespace Sys2Proof

/-! ## The fields of a command word (R90, R91) -/

/-- OPC, bits 7:0. -/
def fieldOpc (w : Word) : BitVec 8 := w.extractLsb' 0 8

/-- MSEL, bits 9:8. -/
def fieldMsel (w : Word) : BitVec 2 := w.extractLsb' 8 2

/-- B, bit 10. -/
def fieldB (w : Word) : Bool := w.getLsbD 10

/-- The reserved bit 11. -/
def fieldReserved11 (w : Word) : Bool := w.getLsbD 11

/-- RD, bits 15:12. -/
def fieldRd (w : Word) : Reg := (w.extractLsb' 12 4).toFin

/-- RS1, bits 19:16. -/
def fieldRs1 (w : Word) : Reg := (w.extractLsb' 16 4).toFin

/-- RS2, bits 23:20. -/
def fieldRs2 (w : Word) : Reg := (w.extractLsb' 20 4).toFin

/-- The reserved bits 31:24. -/
def fieldReservedTop (w : Word) : BitVec 8 := w.extractLsb' 24 8

/-! ## The opcode map (R99) -/

/-- All commands, in the opcode map's order. -/
def allOpcodes : List Opcode :=
  [.nop, .add, .sub, .rquick, .madd, .msub, .mul, .mmul, .minv, .fred, .bred, .ladder, .eddbl,
   .edadd, .jdbl, .jadd, .smul521, .edsmulCt, .edsmulVt]

/-- The OPC column. -/
def Opcode.code : Opcode → BitVec 8
  | .nop => 0x00
  | .add => 0x10
  | .sub => 0x11
  | .rquick => 0x12
  | .madd => 0x13
  | .msub => 0x14
  | .mul => 0x20
  | .mmul => 0x21
  | .minv => 0x22
  | .fred => 0x30
  | .bred => 0x31
  | .ladder => 0x40
  | .eddbl => 0x50
  | .edadd => 0x51
  | .jdbl => 0x60
  | .jadd => 0x61
  | .smul521 => 0x70
  | .edsmulCt => 0x71
  | .edsmulVt => 0x72

/-- The command whose OPC is `c`; none for the 237 reserved values (R100). -/
def Opcode.ofCode (c : BitVec 8) : Option Opcode :=
  allOpcodes.find? (fun op => op.code == c)

/-- MSEL as two bits (R92). -/
def Msel.code : Msel → BitVec 2
  | .f25519 => 0
  | .l25519 => 1
  | .f521 => 2
  | .q521 => 3

/-- The selector two MSEL bits name (R92). -/
def Msel.ofBits (b : BitVec 2) : Msel :=
  match b.getLsbD 1, b.getLsbD 0 with
  | false, false => .f25519
  | false, true => .l25519
  | true, false => .f521
  | true, true => .q521

/-- The "MSEL accepted" column. -/
def Opcode.acceptsMsel : Opcode → Msel → Bool
  | .nop, _ => true
  | .add, _ => true
  | .sub, _ => true
  | .rquick, _ => true
  | .madd, _ => true
  | .msub, _ => true
  | .mul, _ => true
  | .mmul, _ => true
  | .minv, _ => true
  | .fred, m => m == .f25519 || m == .f521
  | .bred, m => m == .l25519 || m == .q521
  | .ladder, m => m == .f25519
  | .eddbl, m => m == .f25519
  | .edadd, m => m == .f25519
  | .jdbl, m => m == .f521
  | .jadd, m => m == .f521
  | .smul521, m => m == .f521
  | .edsmulCt, m => m == .f25519
  | .edsmulVt, m => m == .f25519

/-- The "B accepted" column. -/
def Opcode.acceptsB : Opcode → Bool
  | .nop => false
  | .add => false
  | .sub => false
  | .rquick => false
  | .madd => false
  | .msub => false
  | .mul => false
  | .mmul => false
  | .minv => false
  | .fred => false
  | .bred => false
  | .ladder => true
  | .eddbl => false
  | .edadd => false
  | .jdbl => false
  | .jadd => false
  | .smul521 => true
  | .edsmulCt => true
  | .edsmulVt => true

/-- The "range" column: the last register each of RD, RS1 and RS2 may name; 15 where the field is a
single register or ignored. -/
def Opcode.rangeMax : Opcode → Nat × Nat × Nat
  | .nop => (15, 15, 15)
  | .add => (15, 15, 15)
  | .sub => (15, 15, 15)
  | .rquick => (15, 15, 15)
  | .madd => (15, 15, 15)
  | .msub => (15, 15, 15)
  | .mul => (14, 15, 15)
  | .mmul => (15, 15, 15)
  | .minv => (15, 15, 15)
  | .fred => (15, 14, 15)
  | .bred => (15, 14, 15)
  | .ladder => (15, 15, 15)
  | .eddbl => (12, 12, 15)
  | .edadd => (12, 12, 12)
  | .jdbl => (13, 13, 15)
  | .jadd => (13, 13, 14)
  | .smul521 => (14, 15, 14)
  | .edsmulCt => (12, 15, 12)
  | .edsmulVt => (12, 15, 12)

/-- The used group fields of `w` stay within `x[15]` (R285); RS2 is not used when B = 1. -/
def Opcode.rangeOk (op : Opcode) (w : Word) : Bool :=
  decide ((fieldRd w).val ≤ op.rangeMax.1) && decide ((fieldRs1 w).val ≤ op.rangeMax.2.1) &&
    (fieldB w || decide ((fieldRs2 w).val ≤ op.rangeMax.2.2))

/-- The checks of R291 after the opcode is known, in their order. -/
def checkFields (op : Opcode) (w : Word) : Option ErrCode :=
  if fieldReserved11 w || fieldReservedTop w != 0 then some .reservedField
  else if fieldB w && !op.acceptsB then some .reservedField
  else if !op.acceptsMsel (Msel.ofBits (fieldMsel w)) then some .illegalMsel
  else if !op.rangeOk w then some .regRange
  else none

/-- The issue check `Check(v)` and its priority (R291); `none` is OK. -/
def check (w : Word) : Option ErrCode :=
  match Opcode.ofCode (fieldOpc w) with
  | none => some .illegalOpcode
  | some op => checkFields op w

/-! ## Decoding -/

/-- The second operand of a command that accepts B (R91, R98). -/
def pointSrcOf (w : Word) : PointSrc := if fieldB w then .base else .reg (fieldRs2 w)

/-- The command `op` with the fields of `w` that it uses (R99). -/
def build (op : Opcode) (w : Word) : Instr :=
  match op with
  | .nop => .nop
  | .add => .add (Msel.ofBits (fieldMsel w)) (fieldRd w) (fieldRs1 w) (fieldRs2 w)
  | .sub => .sub (Msel.ofBits (fieldMsel w)) (fieldRd w) (fieldRs1 w) (fieldRs2 w)
  | .rquick => .rquick (Msel.ofBits (fieldMsel w)) (fieldRd w) (fieldRs1 w)
  | .madd => .madd (Msel.ofBits (fieldMsel w)) (fieldRd w) (fieldRs1 w) (fieldRs2 w)
  | .msub => .msub (Msel.ofBits (fieldMsel w)) (fieldRd w) (fieldRs1 w) (fieldRs2 w)
  | .mul => .mul (Msel.ofBits (fieldMsel w)) (fieldRd w) (fieldRs1 w) (fieldRs2 w)
  | .mmul => .mmul (Msel.ofBits (fieldMsel w)) (fieldRd w) (fieldRs1 w) (fieldRs2 w)
  | .minv => .minv (Msel.ofBits (fieldMsel w)) (fieldRd w) (fieldRs1 w)
  | .fred => .fred (Msel.ofBits (fieldMsel w)) (fieldRd w) (fieldRs1 w)
  | .bred => .bred (Msel.ofBits (fieldMsel w)) (fieldRd w) (fieldRs1 w)
  | .ladder => .ladder (fieldRd w) (fieldRs1 w) (pointSrcOf w)
  | .eddbl => .eddbl (fieldRd w) (fieldRs1 w)
  | .edadd => .edadd (fieldRd w) (fieldRs1 w) (fieldRs2 w)
  | .jdbl => .jdbl (fieldRd w) (fieldRs1 w)
  | .jadd => .jadd (fieldRd w) (fieldRs1 w) (fieldRs2 w)
  | .smul521 => .smul521 (fieldRd w) (fieldRs1 w) (pointSrcOf w)
  | .edsmulCt => .edsmulCt (fieldRd w) (fieldRs1 w) (pointSrcOf w)
  | .edsmulVt => .edsmulVt (fieldRd w) (fieldRs1 w) (pointSrcOf w)

/-- The command a word means, or the error its issue check finds. Total on every word. -/
def decode (w : Word) : Except ErrCode Instr :=
  match Opcode.ofCode (fieldOpc w) with
  | none => .error .illegalOpcode
  | some op =>
    match checkFields op w with
    | some e => .error e
    | none => .ok (build op w)

/-- A command word numbered as spec/opcode_table.json numbers its bits; the block has one command
length, one word (R90), so the bits at and above `nbits` are 0. -/
def tableWord (nbits w : Nat) : Word := BitVec.ofNat 32 (w % 2 ^ nbits)

/-- What the decoder reads from a table word; none where it refuses. -/
def decodeTableWord (nbits w : Nat) : Option Instr :=
  match decode (tableWord nbits w) with
  | .ok i => some i
  | .error _ => none

/-! ## Encoding (R90, R101: `RS2<<20 | RS1<<16 | RD<<12 | B<<10 | MSEL<<8 | OPC`) -/

/-- A command word from its fields; the reserved bits are 0. -/
def commandWord (opc : BitVec 8) (msel : BitVec 2) (b : Bool) (rd rs1 rs2 : Reg) : Word :=
  0#8 ++ BitVec.ofFin (w := 4) rs2 ++ BitVec.ofFin (w := 4) rs1 ++ BitVec.ofFin (w := 4) rd ++ 0#1 ++
    BitVec.ofBool b ++ msel ++ opc

/-- The B bit of an operand that may be the base point. -/
def PointSrc.bBit : PointSrc → Bool
  | .base => true
  | .reg _ => false

/-- The RS2 field of an operand that may be the base point; an omitted field assembles as 0 (R101). -/
def PointSrc.rs2 : PointSrc → Reg
  | .base => 0
  | .reg r => r

/-- The word of a command, its ignored fields 0 (R101). -/
def encode : Instr → Word
  | .nop => commandWord Opcode.nop.code 0 false 0 0 0
  | .add m rd rs1 rs2 => commandWord Opcode.add.code m.code false rd rs1 rs2
  | .sub m rd rs1 rs2 => commandWord Opcode.sub.code m.code false rd rs1 rs2
  | .rquick m rd rs1 => commandWord Opcode.rquick.code m.code false rd rs1 0
  | .madd m rd rs1 rs2 => commandWord Opcode.madd.code m.code false rd rs1 rs2
  | .msub m rd rs1 rs2 => commandWord Opcode.msub.code m.code false rd rs1 rs2
  | .mul m rd rs1 rs2 => commandWord Opcode.mul.code m.code false rd rs1 rs2
  | .mmul m rd rs1 rs2 => commandWord Opcode.mmul.code m.code false rd rs1 rs2
  | .minv m rd rs1 => commandWord Opcode.minv.code m.code false rd rs1 0
  | .fred m rd rs1 => commandWord Opcode.fred.code m.code false rd rs1 0
  | .bred m rd rs1 => commandWord Opcode.bred.code m.code false rd rs1 0
  | .ladder rd rs1 u => commandWord Opcode.ladder.code 0 u.bBit rd rs1 u.rs2
  | .eddbl rd rs1 => commandWord Opcode.eddbl.code 0 false rd rs1 0
  | .edadd rd rs1 rs2 => commandWord Opcode.edadd.code 0 false rd rs1 rs2
  | .jdbl rd rs1 => commandWord Opcode.jdbl.code 2 false rd rs1 0
  | .jadd rd rs1 rs2 => commandWord Opcode.jadd.code 2 false rd rs1 rs2
  | .smul521 rd rs1 p => commandWord Opcode.smul521.code 2 p.bBit rd rs1 p.rs2
  | .edsmulCt rd rs1 p => commandWord Opcode.edsmulCt.code 0 p.bBit rd rs1 p.rs2
  | .edsmulVt rd rs1 p => commandWord Opcode.edsmulVt.code 0 p.bBit rd rs1 p.rs2

/-- The bits of a command's word that are not ignored fields (R98): the RD, RS1, RS2 and MSEL bits
that R99 marks "ign" are clear, and RS2 is clear when B = 1. -/
def Instr.fieldMask : Instr → Word
  | .nop => 0xFF000CFF
  | .rquick _ _ _ => 0xFF0FFFFF
  | .minv _ _ _ => 0xFF0FFFFF
  | .fred _ _ _ => 0xFF0FFFFF
  | .bred _ _ _ => 0xFF0FFFFF
  | .eddbl _ _ => 0xFF0FFFFF
  | .jdbl _ _ => 0xFF0FFFFF
  | .ladder _ _ u => if u.bBit then 0xFF0FFFFF else 0xFFFFFFFF
  | .smul521 _ _ p => if p.bBit then 0xFF0FFFFF else 0xFFFFFFFF
  | .edsmulCt _ _ p => if p.bBit then 0xFF0FFFFF else 0xFFFFFFFF
  | .edsmulVt _ _ p => if p.bBit then 0xFF0FFFFF else 0xFFFFFFFF
  | .add _ _ _ _ => 0xFFFFFFFF
  | .sub _ _ _ _ => 0xFFFFFFFF
  | .madd _ _ _ _ => 0xFFFFFFFF
  | .msub _ _ _ _ => 0xFFFFFFFF
  | .mul _ _ _ _ => 0xFFFFFFFF
  | .mmul _ _ _ _ => 0xFFFFFFFF
  | .edadd _ _ _ => 0xFFFFFFFF
  | .jadd _ _ _ => 0xFFFFFFFF

end Sys2Proof
end

