-- ==== Sys2Proof/Machine/Rom.lean ====
section
/-! DEFINITION. The constant ROM (10_state.md R35–R38) and the ID register's value (R27): hardwired
constants, which no command, write or reset changes. -/

namespace Sys2Proof.Machine

/-- `2^255 - 19` (R35). -/
def romP25519 : Nat := 2 ^ 255 - 19

/-- The ladder constant `a24 = (486662 - 2) / 4` (R35). -/
def romA24 : Nat := 121665

/-- The Ed25519 group order (R35). -/
def romL25519 : Nat := 2 ^ 252 + 27742317777372353535851937790883648493

/-- The Edwards curve's `d` (R35). -/
def romEdD : Nat := 0x52036cee2b6ffe738cc740797779e89800700a4d4141d8ab75eb4dca135978a3

/-- The Ed25519 base point's x (R35). -/
def romEdBX : Nat := 0x216936d3cd6e53fec0a4e231fdd6dc5c692cc7609525a7b2c9562d608f25d51a

/-- The Ed25519 base point's y (R35). -/
def romEdBY : Nat := 0x6666666666666666666666666666666666666666666666666666666666666658

/-- `ED_BX * ED_BY mod P25519` (R35). -/
def romEdBT : Nat := 0x67875f0fd78b766566ea4e8e64abe37d20f09f80775152f56dde8ab3a5b7dda3

/-- The X25519 base point's u-coordinate (R36). -/
def romX25519U : Nat := 9

/-- `P521 = 2^521 - 1` (R37), written out. -/
def romP521 : Nat :=
  0x1ffffffffffffffffffffffffffffffffffffffffffffffffffffffffffffffffffffffffffffffffffffffffffffffffffffffffffffffffffffffffffffffffff

/-- The P-521 curve's `b` (R37); no command reads it. -/
def romB521 : Nat :=
  0x51953eb9618e1c9a1f929a21a0b68540eea2da725b99b315f3b8b489918ef109e156193951ec7e937b1652c0bd3bb1bf073573df883d2c34f1ef451fd46b503f00

/-- The P-521 group order (R37). -/
def romQ521 : Nat :=
  0x1fffffffffffffffffffffffffffffffffffffffffffffffffffffffffffffffffa51868783bf2f966b7fcc0148f709a5d03bb5c9b8899c47aebb6fb71e91386409

/-- The P-521 base point's x (R37). -/
def romGX521 : Nat :=
  0xc6858e06b70404e9cd9e3ecb662395b4429c648139053fb521f828af606b4d3dbaa14b5e77efe75928fe1dc127a2ffa8de3348b3c1856a429bf97e7e31c2e5bd66

/-- The P-521 base point's y (R37). -/
def romGY521 : Nat :=
  0x11839296a789a3bc0045c8a5fb42c7d1bd998f54449579b446817afbd17273e662c97ee72995ef42640c550b9013fad0761353c7086a272c24088be94769fd16650

/-- The ID register (R27). -/
def romId : Word := 0x434F5245

end Sys2Proof.Machine
end

