-- ==== Sys2Proof/Machine/Field.lean ====
section
/-! DEFINITION. Field arithmetic on unbounded integers (00_scope.md R8, R9): the helpers `f+`, `f-`, `f*`,
`fsq` and the Fermat inverse `inv_m`, with the selections `cswap` (R191) and `cmove` (R253). -/

namespace Sys2Proof.Machine

/-- `a mod m` for any integer `a`, negative ones included: the remainder in `[0, m)` (R8). -/
def modInt (a : Int) (m : Nat) : Nat := (a % (m : Int)).toNat

/-- `a f+ b` (R9). -/
def fAdd (m a b : Nat) : Nat := (a + b) % m

/-- `a f- b` (R9). -/
def fSub (m a b : Nat) : Nat := modInt ((a : Int) - (b : Int)) m

/-- `a f* b` (R9). -/
def fMul (m a b : Nat) : Nat := (a * b) % m

/-- `fsq(a) = f*(a, a)` (R9). -/
def fSq (m a : Nat) : Nat := fMul m a a

/-- `a^e mod m` for an exponent of `n` bits, by squaring from the top bit down: the value of
`a ^ e % m` (proved in Laws/Field.lean), in a form that can be evaluated. -/
def powMod (m a e : Nat) : Nat → Nat
  | 0 => 1 % m
  | n + 1 =>
    let r := powMod m a (e / 2) n
    if e % 2 = 1 then (r * r % m) * a % m else r * r % m

/-- `inv_m(a) = a^(m-2) mod m`, the Fermat inverse, with `inv_m(0) = 0` (R8). The exponents of the four
moduli have at most 521 bits. -/
def fInv (m a : Nat) : Nat := powMod m a (m - 2) 521

/-- `cswap(s, a, b)`: `(b, a)` when `s = 1`, `(a, b)` when `s = 0` (R191). -/
def cswap {α : Type} (s : Bool) (a b : α) : α × α :=
  match s with
  | true => (b, a)
  | false => (a, b)

/-- `cmove(c, a, b)`: `a` when `c = 1`, `b` when `c = 0` (R253). -/
def cmove {α : Type} (c : Bool) (a b : α) : α :=
  match c with
  | true => a
  | false => b

end Sys2Proof.Machine
end

