-- ==== Sys2Proof/Machine/State.lean ====
section
/-! DEFINITION. The block's state as plain data (10_state.md): the operand file, CMD, STATUS, CTRL, the
in-flight record and the hidden working storage, with the parameters of the implementation, and the
model's own fields for the outside world (the host's pending actions, the words its reads returned).
ID and the constant ROM are hardwired constants (Machine/Rom.lean); PARAM is computed from the
parameters; `irq` and every bus word are computed views. -/

namespace Sys2Proof.Machine

open Sys2Proof

/-- STATUS (R25), field by field; the reserved bits 7:6 and 31:16 read 0 and are not storage. -/
structure Status where
  /-- bit 0: a command is in flight (R31) -/
  busy : Bool
  /-- bit 1 (R30) -/
  done : Bool
  /-- bit 2 (R30) -/
  err : Bool
  /-- bit 3 (R29) -/
  carry : Bool
  /-- bit 4 (R29) -/
  valid : Bool
  /-- bit 5 (R29) -/
  zero : Bool
  /-- bits 15:8: the code of the first error since ERR was last 0 (R281) -/
  errcode : BitVec 8
  deriving DecidableEq, Repr

/-- STATUS after reset: 0x00000000 (R44). -/
def Status.cleared : Status := ⟨false, false, false, false, false, false, 0⟩

/-- The in-flight record (R33): the command word and the cycles still to run before completion. -/
structure InFlight where
  word : Word
  cycles : Nat
  deriving DecidableEq, Repr

/-- What the outside world does to the block, one entry each, in the order it happens (R20, R60, R320).
Any interleaving of host transactions with clock cycles is a list of these (log 6). -/
inductive HostEvent where
  /-- the bus transaction `MemRead(addr, 4)` (R60) -/
  | read (addr : Addr)
  /-- the bus transaction `MemWrite(addr, 4, v)` (R60) -/
  | write (addr : Addr) (v : Word)
  /-- the reset input `rst_n` is asserted (R320) -/
  | resetPin
  /-- a clock cycle passes with no transaction -/
  | cycle
  /-- the host macro WAIT (R102): poll STATUS, a cycle between polls, until BUSY is 0 -/
  | wait
  deriving DecidableEq, Repr

/-- The state of the block, and of its interface to the host. -/
structure State where
  /-- LIMB_BITS and LAT (R6), hardwired: nothing changes them -/
  params : Params
  /-- the operand register file `x[0]`..`x[15]` (R21) -/
  x : RegFile
  /-- CMD (R24) -/
  cmd : Word
  /-- STATUS (R25) -/
  status : Status
  /-- CTRL.IRQ_EN (R26); CTRL's other bits are not storage -/
  irqEn : Bool
  /-- the in-flight record, if a command is in flight (R33) -/
  inflight : Option InFlight
  /-- the engine's hidden working storage (R34) -/
  hidden : Hidden
  /-- the model's own: what the outside world does next, in order -/
  agenda : List HostEvent
  /-- the model's own: the words the host's reads returned, the latest first -/
  returned : List Word
  /-- the model's own: how many free values of the working storage have been drawn -/
  freeCount : Nat
  deriving DecidableEq, Repr

/-- Why the machine stops with a fault. -/
inductive Fault where
  /-- Raised by `step` alone, at the engine's completion step, when CMD holds a word that its issue
  check rejects while STATUS.BUSY is 1. No rule leads there (R41 makes a command BUSY only after its
  check passed); a state placed by hand can. Safe: the model stops where the spec gives no behaviour
  (row 5 of 93_implementation_defined.md, treatment `refuse`). -/
  | inFlightRejected (e : ErrCode)
  deriving DecidableEq, Repr

/-- Why an instruction has no meaning. -/
inductive Refusal where
  /-- Raised by `exec` for an instruction that has no meaning yet; no arm answers it now. Safe. -/
  | notModelled (mnemonic : String)
  /-- Raised by a meaning given a term that is no command: its MSEL or a register group is not one
  R99 accepts, so no word decodes to it and the issue check has already reported ILLEGAL_MSEL or
  REG_RANGE (R284, R285). Safe: `step` never reaches it. -/
  | illFormed
  deriving DecidableEq, Repr

/-- The state right after reset (R44), with nothing pending from outside. Every field the spec names
is at the value R44 gives; the parameters are the open ones of Config; the three model's own fields
are empty (log 3, log 5, log 6). -/
def State.reset : State where
  params := Config.params
  x := Vector.replicate 16 0
  cmd := 0
  status := Status.cleared
  irqEn := false
  inflight := none
  hidden := Hidden.zeroed
  agenda := []
  returned := []
  freeCount := 0

end Sys2Proof.Machine
end

