-- ==== Sys2Proof/Machine/Operands.lean ====
section
/-! DEFINITION. The operand forms (30_encoding.md R92–R97): the modulus and the width MSEL selects, the
read of one register truncated to the width, the groups of consecutive registers, the base points the
B bit selects, and the destination writes of a command. -/

namespace Sys2Proof.Machine

open Sys2Proof

/-- The modulus `m` of R92. -/
def modulus : Msel → Nat
  | .f25519 => romP25519
  | .l25519 => romL25519
  | .f521 => romP521
  | .q521 => romQ521

/-- The operation width `W` of R92. -/
def State.width (s : State) : Msel → Nat
  | .f25519 => 256
  | .l25519 => 256
  | .f521 => s.params.limbBits.w521
  | .q521 => s.params.limbBits.w521

/-- Operand register `x[i]`. -/
def State.reg (s : State) (i : Reg) : Operand := s.x[i.val]

/-- The operand read `src(i) = x[i] mod 2^W` (R94). -/
def State.src (s : State) (m : Msel) (i : Reg) : Nat := (s.reg i).toNat % 2 ^ s.width m

/-- The value of the pair at `i` (R96): low half in `x[i]`, high half in `x[i+1]`. -/
def State.srcPair (s : State) (m : Msel) (i : Reg) : Nat :=
  s.src m (i + 1) * 2 ^ s.width m + s.src m i

/-- An affine point of P-521 (R96). -/
structure Aff where
  x : Nat
  y : Nat
  deriving DecidableEq, Repr

/-- A Jacobian point of P-521 (R96). -/
structure Jac where
  x : Nat
  y : Nat
  z : Nat
  deriving DecidableEq, Repr

/-- An extended point of Ed25519 (R96). -/
structure Ext where
  x : Nat
  y : Nat
  z : Nat
  t : Nat
  deriving DecidableEq, Repr

/-- The affine point at register `i`, as read. -/
def State.srcAff (s : State) (i : Reg) : Aff := ⟨s.src .f521 i, s.src .f521 (i + 1)⟩

/-- The Jacobian point at register `i`, as read. -/
def State.srcJac (s : State) (i : Reg) : Jac :=
  ⟨s.src .f521 i, s.src .f521 (i + 1), s.src .f521 (i + 2)⟩

/-- The extended point at register `i`, as read. -/
def State.srcExt (s : State) (i : Reg) : Ext :=
  ⟨s.src .f25519 i, s.src .f25519 (i + 1), s.src .f25519 (i + 2), s.src .f25519 (i + 3)⟩

/-- The u-coordinate of LADDER: the ROM's when B = 1, else register RS2 (R190). -/
def State.srcU (s : State) : PointSrc → Nat
  | .base => romX25519U
  | .reg i => s.src .f25519 i

/-- The point of SMUL521: `G` when B = 1, else the group at RS2 (R250). -/
def State.srcPointAff (s : State) : PointSrc → Aff
  | .base => ⟨romGX521, romGY521⟩
  | .reg i => s.srcAff i

/-- The point of EDSMUL: `B` when B = 1, else the group at RS2 (R251). -/
def State.srcPointExt (s : State) : PointSrc → Ext
  | .base => ⟨romEdBX, romEdBY, 1, romEdBT⟩
  | .reg i => s.srcExt i

/-- The destination writes of a command: register and value (R42's `D`). -/
abbrev Writes := List (Reg × Nat)

/-- The destination write `dst(i, v)` (R95). -/
def dst (i : Reg) (v : Nat) : Writes := [(i, v)]

/-- The destination writes of a pair (R96): low half, high half. -/
def dstPair (i : Reg) (lo hi : Nat) : Writes := [(i, lo), (i + 1, hi)]

/-- The destination writes of an affine point (R96). -/
def dstAff (i : Reg) (p : Aff) : Writes := [(i, p.x), (i + 1, p.y)]

/-- The destination writes of a Jacobian point (R96). -/
def dstJac (i : Reg) (p : Jac) : Writes := [(i, p.x), (i + 1, p.y), (i + 2, p.z)]

/-- The destination writes of an extended point (R96). -/
def dstExt (i : Reg) (p : Ext) : Writes :=
  [(i, p.x), (i + 1, p.y), (i + 2, p.z), (i + 3, p.t)]

/-- `x[i] <- zext_576(v)` for every destination (R42, R95). The destinations of one command are
distinct registers, so the order of the list does not matter. -/
def applyWrites (x : RegFile) : Writes → RegFile
  | [] => x
  | (i, v) :: rest => applyWrites (x.set i.val (BitVec.ofNat 576 v) i.isLt) rest

end Sys2Proof.Machine
end

