-- ==== Sys2Proof/Machine/Flags.lean ====
section
/-! DEFINITION. The three result flags (10_state.md R29) and the conditions the commands' "Flags" lines
are made of (40–46), with the STATUS word (R25). -/

namespace Sys2Proof.Machine

open Sys2Proof

/-- The flags a command writes at its completion (R29, R42's `F`). -/
structure Flags where
  carry : Bool
  valid : Bool
  zero : Bool
  deriving DecidableEq, Repr

/-- The carry out of a sum at width `W`: `s >= 2^W` (R130). -/
def carryOut (w sum : Nat) : Bool := decide (2 ^ w ≤ sum)

/-- The borrow of `a - b`: `a < b` (R131). -/
def borrowOut (a b : Nat) : Bool := decide (a < b)

/-- ZERO of a primary result (R29). -/
def isZero (r : Nat) : Bool := decide (r = 0)

/-- Below its modulus: canonical (R29). -/
def canonical (m a : Nat) : Bool := decide (a < m)

/-- Both coordinates of an affine point are canonical (R231, R250). -/
def Aff.canonical (p : Aff) : Bool := Machine.canonical romP521 p.x && Machine.canonical romP521 p.y

/-- All coordinates of a Jacobian point are canonical (R230, R231). -/
def Jac.canonical (p : Jac) : Bool :=
  Machine.canonical romP521 p.x && Machine.canonical romP521 p.y && Machine.canonical romP521 p.z

/-- All coordinates of an extended point are canonical (R210, R211, R251). -/
def Ext.canonical (p : Ext) : Bool :=
  Machine.canonical romP25519 p.x && Machine.canonical romP25519 p.y &&
    Machine.canonical romP25519 p.z && Machine.canonical romP25519 p.t

/-- The flags of a command that writes CARRY <- 0, VALID and ZERO. -/
def flagsOf (valid : Bool) (r : Nat) : Flags := ⟨false, valid, isZero r⟩

/-- STATUS with the three flags of a completion; `none` leaves them (R42, R270). -/
def Status.withFlags (st : Status) : Option Flags → Status
  | none => st
  | some f => { st with carry := f.carry, valid := f.valid, zero := f.zero }

/-- STATUS as the host reads it (R25): bits 31:16 and 7:6 are 0. -/
def Status.toWord (st : Status) : Word :=
  0#16 ++ st.errcode ++ 0#2 ++ BitVec.ofBool st.zero ++ BitVec.ofBool st.valid ++
    BitVec.ofBool st.carry ++ BitVec.ofBool st.err ++ BitVec.ofBool st.done ++ BitVec.ofBool st.busy

end Sys2Proof.Machine
end

