-- ==== Sys2Proof/Machine/Ops.lean ====
section
/-! DEFINITION. The shared operations on the state: recording an error (60_exceptions.md R288–R290), the
block's one form of exceptional event (it has no trap entry and no return from one, R294, R295); issue
(10_state.md R41) with the latency (70_reset_and_hazards.md R330); the passing of a cycle; completion
(R42); and reset (R321). -/

namespace Sys2Proof.Machine

open Sys2Proof

/-! ## Errors -/

/-- The code of an error (R281). -/
def errorCode : ErrCode → BitVec 8
  | .illegalOpcode => 0x01
  | .reservedField => 0x02
  | .illegalMsel => 0x03
  | .regRange => 0x04
  | .cmdWhileBusy => 0x05
  | .rfWriteWhileBusy => 0x06

/-- `raise Error(c)` (R288): the first code is kept until ERR is cleared. This is all a busy error
does (R290). -/
def State.raise (s : State) (e : ErrCode) : State :=
  { s with status := { s.status with
      err := true,
      errcode := if s.status.err then s.status.errcode else errorCode e } }

/-- An issue-time error (R289): it is recorded, and DONE is set. -/
def State.raiseIssue (s : State) (e : ErrCode) : State :=
  { s with status := { (s.raise e).status with done := true } }

/-! ## Issue -/

/-- `LAT(v)` (R330), finite and at least 1: from OPC and MSEL alone, except for EDSMUL_VT, where it
may also depend on the scalar. -/
def State.latency (s : State) (v : Word) : Nat :=
  if fieldOpc v = Opcode.edsmulVt.code then
    Config.edsmulVtLatency s.params.limbBits ((s.reg (fieldRs1 v)).setWidth 256) + 1
  else s.params.latency.getD (4 * (fieldOpc v).toNat + (fieldMsel v).toNat) 0 + 1

/-- The working storage takes a new, free, value (R34). -/
def State.work (s : State) : State :=
  { s with hidden := Config.workingStorage s.freeCount s.cmd s.x, freeCount := s.freeCount + 1 }

/-- An accepted command begins (R41): DONE <- 0, BUSY <- 1, and the in-flight record is made. -/
def State.accept (s : State) (v : Word) : State :=
  { s with status := { s.status with done := false, busy := true },
           inflight := some ⟨v, s.latency v⟩ }.work

/-- A host write of `v` to CMD (R41). -/
def State.issue (s : State) (v : Word) : State :=
  if s.status.busy then s.raise .cmdWhileBusy
  else
    match check v with
    | some e => { s with cmd := v }.raiseIssue e
    | none => { s with cmd := v }.accept v

/-! ## Cycles and completion -/

/-- One clock cycle passes: the in-flight count runs down (R33, R330) and the engine works on. An idle
block is unchanged (R302). -/
def State.tick (s : State) : State :=
  match s.status.busy, s.inflight with
  | true, some f => { s with inflight := some { f with cycles := f.cycles - 1 } }.work
  | _, _ => s

/-- The engine's step is enabled: BUSY is 1 and the in-flight count has run out (R42). -/
def State.engineReady (s : State) : Bool :=
  match s.status.busy, s.inflight with
  | true, some f => decide (f.cycles = 0)
  | _, _ => false

/-- What a command's `Exec` answers (R42): its destination writes and its flags, or no flags. -/
structure Result where
  writes : Writes
  flags : Option Flags
  deriving DecidableEq, Repr

/-- Completion (R42), in one step: all destinations, the flags, BUSY <- 0, DONE <- 1; the in-flight
record ends and the hidden state is zeroized (R34). -/
def State.complete (s : State) (r : Result) : State :=
  { s with x := applyWrites s.x r.writes,
           status := { s.status.withFlags r.flags with busy := false, done := true },
           inflight := none,
           hidden := Hidden.zeroed }

/-- The completion of a command, for a term that is one; a term that is no command is refused. -/
def State.finish (s : State) (wellFormed : Bool) (r : Result) :
    Host.Outcome State Fault Refusal :=
  if wellFormed then .next (s.complete r) else .refused .illFormed

/-! ## Reset -/

/-- A reset from either source (R320, R321): every element to its value of R44 in one step. The
parameters are hardwired; the model's own fields belong to the outside world and stay. -/
def State.doReset (s : State) : State :=
  { s with x := Vector.replicate 16 0,
           cmd := 0,
           status := Status.cleared,
           irqEn := false,
           inflight := none,
           hidden := Hidden.zeroed }

/-- The output `irq = CTRL.IRQ_EN AND (STATUS.DONE OR STATUS.ERR)` (R32). -/
def State.irq (s : State) : Bool := s.irqEn && (s.status.done || s.status.err)

end Sys2Proof.Machine
end

