-- ==== Sys2Proof/Machine/Bus.lean ====
section
/-! DEFINITION. The host bus (20_memory.md): the address map, the operand window, reads, which change
nothing, and writes with their side effects; and one action of the outside world. -/

namespace Sys2Proof.Machine

open Sys2Proof

/-- What stands at a bus address (R63, R65). -/
inductive Loc where
  | id
  | param
  | ctrl
  | status
  | cmd
  | reserved
  | window (k : Reg) (j : Fin 18)
  | windowReserved (k : Reg)
  deriving DecidableEq, Repr

/-- The address map. Bits 1:0 are ignored (R62); bit 11 selects the window, bits 10:7 the register,
bits 6:2 the word (R65). -/
def locOf (a : Addr) : Loc :=
  if a.getLsbD 11 then
    let j := (a.extractLsb' 2 5).toNat
    if h : j < 18 then .window (a.extractLsb' 7 4).toFin ⟨j, h⟩
    else .windowReserved (a.extractLsb' 7 4).toFin
  else
    match (a.extractLsb' 2 9).toNat with
    | 0 => .id
    | 1 => .param
    | 2 => .ctrl
    | 3 => .status
    | 4 => .cmd
    | _ => .reserved

/-- The address of word `j` of register `k` in the window (R65). -/
def windowAddr (k : Reg) (j : Fin 18) : Addr := BitVec.ofNat 12 (0x800 + 0x80 * k.val + 4 * j.val)

/-- `v[32j+31 : 32j]` (R65). -/
def wordOf (v : Operand) (j : Fin 18) : Word := v.extractLsb' (32 * j.val) 32

/-- `v` with its word `j` replaced (R67). -/
def setWordOf (v : Operand) (j : Fin 18) (w : Word) : Operand :=
  (v &&& ~~~((0xFFFFFFFF : Operand) <<< (32 * j.val))) ||| (w.setWidth 576 <<< (32 * j.val))

/-- PARAM (R28): W521, NUM_REGS, LIMB_BITS. -/
def State.paramWord (s : State) : Word :=
  BitVec.ofNat 16 s.params.limbBits.w521 ++ 16#8 ++ BitVec.ofNat 8 s.params.limbBits.toNat

/-- CTRL as read (R26): SRST and the reserved bits read 0. -/
def State.ctrlWord (s : State) : Word := 0#30 ++ BitVec.ofBool s.irqEn ++ 0#1

/-- What a host read returns (R63–R66). -/
def State.busRead (s : State) (a : Addr) : Word :=
  match locOf a with
  | .id => romId
  | .param => s.paramWord
  | .ctrl => s.ctrlWord
  | .status => s.status.toWord
  | .cmd => s.cmd
  | .reserved => 0
  | .window k j => if s.status.busy then 0 else wordOf (s.reg k) j
  | .windowReserved _ => 0

/-- A host write to CTRL (R26): SRST resets and discards the rest of the word. -/
def State.writeCtrl (s : State) (v : Word) : State :=
  if v.getLsbD 0 then s.doReset else { s with irqEn := v.getLsbD 1 }

/-- A host write to STATUS (R25): bit 1 clears DONE, bit 2 clears ERR and ERRCODE. -/
def State.writeStatus (s : State) (v : Word) : State :=
  { s with status := { s.status with
      done := s.status.done && !v.getLsbD 1,
      err := s.status.err && !v.getLsbD 2,
      errcode := if v.getLsbD 2 then 0 else s.status.errcode } }

/-- A host write to data word `j` of `x[k]` (R67). -/
def State.writeWindow (s : State) (k : Reg) (j : Fin 18) (v : Word) : State :=
  if s.status.busy then s.raise .rfWriteWhileBusy
  else { s with x := s.x.set k.val (setWordOf (s.reg k) j v) k.isLt }

/-- A host write to a reserved word of the window (R65, R287). -/
def State.writeWindowReserved (s : State) : State :=
  if s.status.busy then s.raise .rfWriteWhileBusy else s

/-- A host write (R63, R64, R71). -/
def State.busWrite (s : State) (a : Addr) (v : Word) : State :=
  match locOf a with
  | .id => s
  | .param => s
  | .ctrl => s.writeCtrl v
  | .status => s.writeStatus v
  | .cmd => s.issue v
  | .reserved => s
  | .window k j => s.writeWindow k j v
  | .windowReserved _ => s.writeWindowReserved

/-- The address of STATUS (R63). -/
def statusAddr : Addr := 0x00C

/-- The host takes the word a read returned; the block itself is unchanged (R71). -/
def State.returnWord (s : State) (v : Word) : State := { s with returned := v :: s.returned }

/-- The host's read of `a`. -/
def State.hostRead (s : State) (a : Addr) : State := s.returnWord (s.busRead a)

/-- One action of the outside world, taken from the agenda, whose rest is `rest`. WAIT (R102) reads
STATUS and, while it sees BUSY, lets a cycle pass and stays on the agenda. -/
def State.hostStep (s : State) (ev : HostEvent) (rest : List HostEvent) : State :=
  match ev with
  | .read a => { s with agenda := rest }.hostRead a
  | .write a v => { s with agenda := rest }.busWrite a v
  | .resetPin => { s with agenda := rest }.doReset
  | .cycle => { s with agenda := rest }.tick
  | .wait =>
    if s.status.busy then (s.hostRead statusAddr).tick
    else { s with agenda := rest }.hostRead statusAddr

end Sys2Proof.Machine
end

