-- ==== Sys2Proof/Machine/Control.lean ====
section
/-! DEFINITION. The control command NOP (47_control.md R270). -/

namespace Sys2Proof.Machine

open Sys2Proof

/-- NOP (R270): no destination, no flag; the command completes. -/
def execNop (s : State) : Host.Outcome State Fault Refusal :=
  s.finish Instr.nop.wellFormed ⟨[], none⟩

end Sys2Proof.Machine
end

