-- ==== Sys2Proof/Machine/Edwards.lean ====
section
/-! DEFINITION. Ed25519 point doubling and addition in extended coordinates: EDDBL, EDADD
(44_ed25519_point.md R210–R212). Results are never normalised (R212). -/

namespace Sys2Proof.Machine

open Sys2Proof

/-- `EDDBL_f` (R210); `t` is not used. -/
def edDbl (p : Ext) : Ext :=
  let q := romP25519
  let a := fSq q p.x
  let b := fSq q p.y
  let c := fMul q 2 (fSq q p.z)
  let h := fAdd q a b
  let e := fSub q h (fSq q (fAdd q p.x p.y))
  let g := fSub q a b
  let f := fAdd q c g
  ⟨fMul q e f, fMul q g h, fMul q f g, fMul q e h⟩

/-- EDDBL (R210). -/
def execEddbl (rd rs1 : Reg) (s : State) : Host.Outcome State Fault Refusal :=
  s.finish (Instr.eddbl rd rs1).wellFormed
    ⟨dstExt rd (edDbl (s.srcExt rs1)),
     some (flagsOf (s.srcExt rs1).canonical (edDbl (s.srcExt rs1)).z)⟩

/-- `EDADD_f` (R211). -/
def edAdd (p1 p2 : Ext) : Ext :=
  let q := romP25519
  let a := fMul q (fSub q p1.y p1.x) (fSub q p2.y p2.x)
  let b := fMul q (fAdd q p1.y p1.x) (fAdd q p2.y p2.x)
  let c := fMul q (fMul q (fMul q p1.t 2) romEdD) p2.t
  let d := fMul q (fMul q p1.z 2) p2.z
  let e := fSub q b a
  let f := fSub q d c
  let g := fAdd q d c
  let h := fAdd q b a
  ⟨fMul q e f, fMul q g h, fMul q f g, fMul q e h⟩

/-- EDADD (R211). -/
def execEdadd (rd rs1 rs2 : Reg) (s : State) : Host.Outcome State Fault Refusal :=
  s.finish (Instr.edadd rd rs1 rs2).wellFormed
    ⟨dstExt rd (edAdd (s.srcExt rs1) (s.srcExt rs2)),
     some (flagsOf ((s.srcExt rs1).canonical && (s.srcExt rs2).canonical)
       (edAdd (s.srcExt rs1) (s.srcExt rs2)).z)⟩

end Sys2Proof.Machine
end

