-- ==== Sys2Proof/Machine/Ladder.lean ====
section
/-! DEFINITION. The Curve25519 Montgomery ladder: LADDER (43_curve25519_ladder.md R190–R193). -/

namespace Sys2Proof.Machine

open Sys2Proof

/-- The ladder's working values (R190). -/
structure LadderState where
  x2 : Nat
  z2 : Nat
  x3 : Nat
  z3 : Nat
  swap : Bool
  deriving DecidableEq, Repr

/-- The conditional swap of the two working pairs (R190, R191). -/
def LadderState.cswapPairs (l : LadderState) (s : Bool) : LadderState :=
  { l with x2 := (cswap s l.x2 l.x3).1, x3 := (cswap s l.x2 l.x3).2,
           z2 := (cswap s l.z2 l.z3).1, z3 := (cswap s l.z2 l.z3).2 }

/-- The doubling and differential addition of one iteration (R190), on swapped pairs. -/
def LadderState.arith (x1 : Nat) (l : LadderState) : LadderState :=
  let p := romP25519
  let a := fAdd p l.x2 l.z2
  let aa := fSq p a
  let b := fSub p l.x2 l.z2
  let bb := fSq p b
  let e := fSub p aa bb
  let c := fAdd p l.x3 l.z3
  let d := fSub p l.x3 l.z3
  let da := fMul p d a
  let cb := fMul p c b
  { l with x3 := fSq p (fAdd p da cb),
           z3 := fMul p x1 (fSq p (fSub p da cb)),
           x2 := fMul p aa bb,
           z2 := fMul p e (fAdd p aa (fMul p romA24 e)) }

/-- One iteration on scalar bit `kt` (R190): swap on the XOR of the current and the previous bit,
then the arithmetic. -/
def ladderStep (x1 : Nat) (kt : Bool) (l : LadderState) : LadderState :=
  { (l.cswapPairs (l.swap ^^ kt)).arith x1 with swap := kt }

/-- The iterations for bits `n-1` down to 0 of `k` (R190, R192). -/
def ladderLoop (x1 k : Nat) : Nat → LadderState → LadderState
  | 0, l => l
  | n + 1, l => ladderLoop x1 k n (ladderStep x1 (k.testBit n) l)

/-- The ladder's result for scalar `k` and input `u` already reduced to `x1` (R190): bits 254..0, a
final swap, and the division. -/
def ladderValue (k x1 : Nat) : Nat :=
  let l := ladderLoop x1 k 255 ⟨1, 0, x1, 1, false⟩
  let r := l.cswapPairs l.swap
  fMul romP25519 r.x2 (fInv romP25519 r.z2)

/-- LADDER on values (R190, R193): bit 255 of `u` is cleared first. -/
def ladderResult (rd : Reg) (k u : Nat) : Result :=
  let um := u % 2 ^ 255
  let r := ladderValue k (um % romP25519)
  ⟨dst rd r, some (flagsOf (canonical romP25519 um) r)⟩

/-- LADDER (R190). -/
def execLadder (rd rs1 : Reg) (u : PointSrc) (s : State) : Host.Outcome State Fault Refusal :=
  s.finish (Instr.ladder rd rs1 u).wellFormed (ladderResult rd (s.src .f25519 rs1) (s.srcU u))

end Sys2Proof.Machine
end

