-- ==== Sys2Proof/Machine/LimbArith.lean ====
section
/-! DEFINITION. The limb adder and limb subtractor: ADD, SUB, RQUICK, MADD, MSUB
(40_limb_adder_subtractor.md R130–R134). -/

namespace Sys2Proof.Machine

open Sys2Proof

/-- ADD on values of width `w` (R130). -/
def addResult (w : Nat) (rd : Reg) (a b : Nat) : Result :=
  let sum := a + b
  ⟨dst rd (sum % 2 ^ w), some ⟨carryOut w sum, true, isZero (sum % 2 ^ w)⟩⟩

/-- ADD (R130). -/
def execAdd (m : Msel) (rd rs1 rs2 : Reg) (s : State) : Host.Outcome State Fault Refusal :=
  s.finish (Instr.add m rd rs1 rs2).wellFormed (addResult (s.width m) rd (s.src m rs1) (s.src m rs2))

/-- SUB on values of width `w` (R131): the difference wrapped modulo `2^w`, unsigned. -/
def subResult (w : Nat) (rd : Reg) (a b : Nat) : Result :=
  ⟨dst rd (modInt ((a : Int) - (b : Int)) (2 ^ w)), some ⟨borrowOut a b, true, decide (a = b)⟩⟩

/-- SUB (R131). -/
def execSub (m : Msel) (rd rs1 rs2 : Reg) (s : State) : Host.Outcome State Fault Refusal :=
  s.finish (Instr.sub m rd rs1 rs2).wellFormed (subResult (s.width m) rd (s.src m rs1) (s.src m rs2))

/-- One trial subtraction of the modulus (R132). -/
def trialSub (m a : Nat) : Nat := cmove (decide (m ≤ a)) (a - m) a

/-- RQUICK on a value (R132). -/
def rquickResult (m : Nat) (rd : Reg) (a : Nat) : Result :=
  ⟨dst rd (trialSub m a), some ⟨borrowOut a m, canonical m a, isZero (trialSub m a)⟩⟩

/-- RQUICK (R132). -/
def execRquick (m : Msel) (rd rs1 : Reg) (s : State) : Host.Outcome State Fault Refusal :=
  s.finish (Instr.rquick m rd rs1).wellFormed (rquickResult (modulus m) rd (s.src m rs1))

/-- MADD on values (R133). -/
def maddResult (m : Nat) (rd : Reg) (a b : Nat) : Result :=
  ⟨dst rd (fAdd m a b), some (flagsOf (canonical m a && canonical m b) (fAdd m a b))⟩

/-- MADD (R133). -/
def execMadd (m : Msel) (rd rs1 rs2 : Reg) (s : State) : Host.Outcome State Fault Refusal :=
  s.finish (Instr.madd m rd rs1 rs2).wellFormed (maddResult (modulus m) rd (s.src m rs1) (s.src m rs2))

/-- MSUB on values (R134). -/
def msubResult (m : Nat) (rd : Reg) (a b : Nat) : Result :=
  ⟨dst rd (fSub m a b), some (flagsOf (canonical m a && canonical m b) (fSub m a b))⟩

/-- MSUB (R134). -/
def execMsub (m : Msel) (rd rs1 rs2 : Reg) (s : State) : Host.Outcome State Fault Refusal :=
  s.finish (Instr.msub m rd rs1 rs2).wellFormed (msubResult (modulus m) rd (s.src m rs1) (s.src m rs2))

end Sys2Proof.Machine
end

