-- ==== Sys2Proof/Machine/Multiplier.lean ====
section
/-! DEFINITION. The multiplier: MUL, MMUL, MINV (41_montgomery_multiplier.md R150–R153). No operand or
result is in a Montgomery domain (R153; 90_conflicts.md C1). -/

namespace Sys2Proof.Machine

open Sys2Proof

/-- MUL on values of width `w` (R150). -/
def mulResult (w : Nat) (rd : Reg) (a b : Nat) : Result :=
  let p := a * b
  ⟨dstPair rd (p % 2 ^ w) (p / 2 ^ w), some (flagsOf true p)⟩

/-- MUL (R150). -/
def execMul (m : Msel) (rd rs1 rs2 : Reg) (s : State) : Host.Outcome State Fault Refusal :=
  s.finish (Instr.mul m rd rs1 rs2).wellFormed (mulResult (s.width m) rd (s.src m rs1) (s.src m rs2))

/-- MMUL on values (R151). -/
def mmulResult (m : Nat) (rd : Reg) (a b : Nat) : Result :=
  ⟨dst rd (fMul m a b), some (flagsOf (canonical m a && canonical m b) (fMul m a b))⟩

/-- MMUL (R151). -/
def execMmul (m : Msel) (rd rs1 rs2 : Reg) (s : State) : Host.Outcome State Fault Refusal :=
  s.finish (Instr.mmul m rd rs1 rs2).wellFormed (mmulResult (modulus m) rd (s.src m rs1) (s.src m rs2))

/-- MINV on a value (R152). -/
def minvResult (m : Nat) (rd : Reg) (a : Nat) : Result :=
  ⟨dst rd (fInv m a), some (flagsOf (canonical m a && !isZero a) (fInv m a))⟩

/-- MINV (R152). -/
def execMinv (m : Msel) (rd rs1 : Reg) (s : State) : Host.Outcome State Fault Refusal :=
  s.finish (Instr.minv m rd rs1).wellFormed (minvResult (modulus m) rd (s.src m rs1))

end Sys2Proof.Machine
end

