-- ==== Sys2Proof/Machine/P521.lean ====
section
/-! DEFINITION. P-521 Jacobian point doubling and mixed addition: JDBL, JADD (45_p521_point.md
R230–R232). -/

namespace Sys2Proof.Machine

open Sys2Proof

/-- `JDBL_f` (R230). -/
def jacDbl (p : Jac) : Jac :=
  let q := romP521
  let delta := fSq q p.z
  let gamma := fSq q p.y
  let beta := fMul q p.x gamma
  let alpha := fMul q (fMul q 3 (fSub q p.x delta)) (fAdd q p.x delta)
  let x3 := fSub q (fSq q alpha) (fMul q 8 beta)
  let z3 := fSub q (fSub q (fSq q (fAdd q p.y p.z)) gamma) delta
  let y3 := fSub q (fMul q alpha (fSub q (fMul q 4 beta) x3)) (fMul q 8 (fSq q gamma))
  ⟨x3, y3, z3⟩

/-- JDBL (R230). -/
def execJdbl (rd rs1 : Reg) (s : State) : Host.Outcome State Fault Refusal :=
  s.finish (Instr.jdbl rd rs1).wellFormed
    ⟨dstJac rd (jacDbl (s.srcJac rs1)),
     some (flagsOf (s.srcJac rs1).canonical (jacDbl (s.srcJac rs1)).z)⟩

/-- The mixed addition's formula (R231), before the select of the point at infinity. -/
def jacAddFormula (p1 : Jac) (p2 : Aff) : Jac :=
  let q := romP521
  let z1z1 := fSq q p1.z
  let u2 := fMul q p2.x z1z1
  let s2 := fMul q (fMul q p2.y p1.z) z1z1
  let h := fSub q u2 p1.x
  let hh := fSq q h
  let i := fMul q 4 hh
  let j := fMul q h i
  let r := fMul q 2 (fSub q s2 p1.y)
  let v := fMul q p1.x i
  let x3 := fSub q (fSub q (fSq q r) j) (fMul q 2 v)
  let y3 := fSub q (fMul q r (fSub q v x3)) (fMul q (fMul q 2 p1.y) j)
  let z3 := fSub q (fSub q (fSq q (fAdd q p1.z h)) z1z1) hh
  ⟨x3, y3, z3⟩

/-- `JADD_f` (R231): the second operand, with `Z = 1`, when the first is the point at infinity. -/
def jacAdd (p1 : Jac) (p2 : Aff) : Jac :=
  cmove (decide (p1.z % romP521 = 0)) ⟨p2.x % romP521, p2.y % romP521, 1⟩ (jacAddFormula p1 p2)

/-- JADD (R231). -/
def execJadd (rd rs1 rs2 : Reg) (s : State) : Host.Outcome State Fault Refusal :=
  s.finish (Instr.jadd rd rs1 rs2).wellFormed
    ⟨dstJac rd (jacAdd (s.srcJac rs1) (s.srcAff rs2)),
     some (flagsOf ((s.srcJac rs1).canonical && (s.srcAff rs2).canonical)
       (jacAdd (s.srcJac rs1) (s.srcAff rs2)).z)⟩

end Sys2Proof.Machine
end

