-- ==== Sys2Proof/Machine/Reduction.lean ====
section
/-! DEFINITION. The reductions of a register pair: FRED modulo a field prime and BRED modulo a group
order (42_reduction.md R170, R171). Both are defined by the exact residue (90_conflicts.md C4). -/

namespace Sys2Proof.Machine

open Sys2Proof

/-- The exact residue of a pair's value (R170, R171). -/
def residueResult (m : Nat) (rd : Reg) (v : Nat) : Result :=
  ⟨dst rd (v % m), some (flagsOf true (v % m))⟩

/-- FRED (R170). -/
def execFred (m : Msel) (rd rs1 : Reg) (s : State) : Host.Outcome State Fault Refusal :=
  s.finish (Instr.fred m rd rs1).wellFormed (residueResult (modulus m) rd (s.srcPair m rs1))

/-- BRED (R171). -/
def execBred (m : Msel) (rd rs1 : Reg) (s : State) : Host.Outcome State Fault Refusal :=
  s.finish (Instr.bred m rd rs1).wellFormed (residueResult (modulus m) rd (s.srcPair m rs1))

end Sys2Proof.Machine
end

