-- ==== Sys2Proof/Machine/ScalarEngine.lean ====
section
/-! DEFINITION. The scalar multiplication engine: SMUL521, EDSMUL_CT, EDSMUL_VT
(46_scalar_mult_engine.md R250–R255). -/

namespace Sys2Proof.Machine

open Sys2Proof

/-! ## P-521 -/

/-- One iteration of SMUL521 on a scalar bit (R250): double, add, select. -/
def smulStep (p : Aff) (b : Bool) (r : Jac) : Jac :=
  cmove b (jacAdd (jacDbl r) p) (jacDbl r)

/-- The iterations for bits `n-1` down to 0 of `k` (R250, R255). -/
def smulLoop (p : Aff) (k : Nat) : Nat → Jac → Jac
  | 0, r => r
  | n + 1, r => smulLoop p k n (smulStep p (k.testBit n) r)

/-- The accumulator after all 521 iterations, from the point at infinity `(1, 1, 0)` (R250). -/
def smulAcc (k : Nat) (p : Aff) : Jac :=
  smulLoop ⟨p.x % romP521, p.y % romP521⟩ k 521 ⟨1, 1, 0⟩

/-- The conversion to affine coordinates (R250); infinity gives `(0, 0)`. -/
def Jac.toAffine (r : Jac) : Aff :=
  let q := romP521
  let zi := fInv q r.z
  ⟨fMul q r.x (fSq q zi), fMul q (fMul q r.y (fSq q zi)) zi⟩

/-- SMUL521 (R250). -/
def execSmul521 (rd rs1 : Reg) (p : PointSrc) (s : State) : Host.Outcome State Fault Refusal :=
  s.finish (Instr.smul521 rd rs1 p).wellFormed
    ⟨dstAff rd (smulAcc (s.src .f521 rs1) (s.srcPointAff p)).toAffine,
     some (flagsOf (s.srcPointAff p).canonical (smulAcc (s.src .f521 rs1) (s.srcPointAff p)).z)⟩

/-! ## Ed25519 -/

/-- Each coordinate modulo `P25519` (R251). -/
def Ext.reduced (p : Ext) : Ext :=
  ⟨p.x % romP25519, p.y % romP25519, p.z % romP25519, p.t % romP25519⟩

/-- The identity `(0, 1, 1, 0)` (R251). -/
def Ext.identity : Ext := ⟨0, 1, 1, 0⟩

/-- One constant-time iteration (R251): double, add, select. -/
def edsmulStepCt (p : Ext) (b : Bool) (r : Ext) : Ext := cmove b (edAdd (edDbl r) p) (edDbl r)

/-- The constant-time iterations for bits `n-1` down to 0 of `k` (R251, R255). -/
def edsmulLoopCt (p : Ext) (k : Nat) : Nat → Ext → Ext
  | 0, r => r
  | n + 1, r => edsmulLoopCt p k n (edsmulStepCt p (k.testBit n) r)

/-- EDSMUL_CT (R251). -/
def execEdsmulCt (rd rs1 : Reg) (p : PointSrc) (s : State) : Host.Outcome State Fault Refusal :=
  let r := edsmulLoopCt (s.srcPointExt p).reduced (s.src .f25519 rs1) 256 Ext.identity
  s.finish (Instr.edsmulCt rd rs1 p).wellFormed
    ⟨dstExt rd r, some (flagsOf (s.srcPointExt p).canonical r.z)⟩

/-- One variable-time iteration (R252): double; the addition is skipped on a 0 bit. -/
def edsmulStepVt (p : Ext) (b : Bool) (r : Ext) : Ext :=
  if b then edAdd (edDbl r) p else edDbl r

/-- The variable-time iterations for bits `n-1` down to 0 of `k` (R252, R255). -/
def edsmulLoopVt (p : Ext) (k : Nat) : Nat → Ext → Ext
  | 0, r => r
  | n + 1, r => edsmulLoopVt p k n (edsmulStepVt p (k.testBit n) r)

/-- EDSMUL_VT (R252). -/
def execEdsmulVt (rd rs1 : Reg) (p : PointSrc) (s : State) : Host.Outcome State Fault Refusal :=
  let r := edsmulLoopVt (s.srcPointExt p).reduced (s.src .f25519 rs1) 256 Ext.identity
  s.finish (Instr.edsmulVt rd rs1 p).wellFormed
    ⟨dstExt rd r, some (flagsOf (s.srcPointExt p).canonical r.z)⟩

end Sys2Proof.Machine
end

