-- ==== Sys2Proof/Machine/Dispatch.lean ====
section
/-! DEFINITION. The meaning of each command, one arm per constructor: what its completion does to the
state (10_state.md R42). -/

namespace Sys2Proof.Machine

open Sys2Proof

def exec (i : Instr) (s : State) : Host.Outcome State Fault Refusal :=
  match i with
  | .nop => Sys2Proof.Machine.execNop s
  | .add m rd rs1 rs2 => Sys2Proof.Machine.execAdd m rd rs1 rs2 s
  | .sub m rd rs1 rs2 => Sys2Proof.Machine.execSub m rd rs1 rs2 s
  | .rquick m rd rs1 => Sys2Proof.Machine.execRquick m rd rs1 s
  | .madd m rd rs1 rs2 => Sys2Proof.Machine.execMadd m rd rs1 rs2 s
  | .msub m rd rs1 rs2 => Sys2Proof.Machine.execMsub m rd rs1 rs2 s
  | .mul m rd rs1 rs2 => Sys2Proof.Machine.execMul m rd rs1 rs2 s
  | .mmul m rd rs1 rs2 => Sys2Proof.Machine.execMmul m rd rs1 rs2 s
  | .minv m rd rs1 => Sys2Proof.Machine.execMinv m rd rs1 s
  | .fred m rd rs1 => Sys2Proof.Machine.execFred m rd rs1 s
  | .bred m rd rs1 => Sys2Proof.Machine.execBred m rd rs1 s
  | .ladder rd rs1 u => Sys2Proof.Machine.execLadder rd rs1 u s
  | .eddbl rd rs1 => Sys2Proof.Machine.execEddbl rd rs1 s
  | .edadd rd rs1 rs2 => Sys2Proof.Machine.execEdadd rd rs1 rs2 s
  | .jdbl rd rs1 => Sys2Proof.Machine.execJdbl rd rs1 s
  | .jadd rd rs1 rs2 => Sys2Proof.Machine.execJadd rd rs1 rs2 s
  | .smul521 rd rs1 p => Sys2Proof.Machine.execSmul521 rd rs1 p s
  | .edsmulCt rd rs1 p => Sys2Proof.Machine.execEdsmulCt rd rs1 p s
  | .edsmulVt rd rs1 p => Sys2Proof.Machine.execEdsmulVt rd rs1 p s

end Sys2Proof.Machine
end

