-- ==== Sys2Proof/Machine/Step.lean ====
section
/-! DEFINITION. One step of the machine. Two agents step the block (10_state.md R20): the engine, whose
one step is completion (R42), and the host, whose pending actions are the agenda. The engine goes
first as soon as its cycle count has run out, so that a completion falls between two host actions
(20_memory.md R72); an empty agenda is a host that does nothing while cycles pass. -/

namespace Sys2Proof.Machine

open Sys2Proof

/-- The engine's step: it executes exactly the word CMD holds (R23, R42). -/
def State.engineStep (s : State) : Host.Outcome State Fault Refusal :=
  match decode s.cmd with
  | .ok i => exec i s
  | .error e => .fault (.inFlightRejected e)

/-- The step of the outside world. -/
def State.worldStep (s : State) : State :=
  match s.agenda with
  | [] => s.tick
  | ev :: rest => s.hostStep ev rest

/-- One step. -/
def step (s : State) : Host.Outcome State Fault Refusal :=
  if s.engineReady then s.engineStep else .next s.worldStep

/-- The state whose very next step runs the command word `w`: CMD holds it, BUSY is 1, and the in-flight
count has run out (R33, R42). On this block a command is not fetched; it is what an accepted write to
CMD, followed by its LAT cycles, leaves (R41; log 2). -/
def State.withFetchWord (s : State) (nbits w : Nat) : State :=
  { s with cmd := tableWord nbits w,
           status := { s.status with busy := true },
           inflight := some ⟨tableWord nbits w, 0⟩ }

end Sys2Proof.Machine
end

