-- ==== Sys2Proof/Safety.lean ====
section
/-! DEFINITION. What a claim calls a sound state and a completed command: the relations between fields
that every rule of the spec keeps. -/

namespace Sys2Proof.Machine

open Sys2Proof

/-- BUSY is 1 exactly while an in-flight record exists (10_state.md R31, R40). -/
abbrev State.BusyIsInFlight (s : State) : Prop := s.status.busy = s.inflight.isSome

/-- The in-flight record holds CMD's word, which passed its check, with at most `LAT` cycles to run
(R33, R41, R330). -/
abbrev State.RecordIsCmd (s : State) : Prop :=
  ∀ f ∈ s.inflight, f.word = s.cmd ∧ check s.cmd = none ∧ f.cycles ≤ s.latency s.cmd

/-- While no command is in flight the working storage is zero (R34). -/
abbrev State.IdleIsClean (s : State) : Prop := s.status.busy = false → s.hidden = Hidden.zeroed

/-- DONE is 0 while a command is in flight (R30, R41). -/
abbrev State.BusyNotDone (s : State) : Prop := s.status.busy = true → s.status.done = false

/-- ERRCODE is one of 0x00 to 0x06, and 0x00 exactly when ERR is 0 (R30, R280). -/
abbrev State.ErrcodeOk (s : State) : Prop :=
  s.status.errcode.toNat ≤ 6 ∧ (s.status.err = true ↔ s.status.errcode ≠ 0)

/-- The invariant of the block. -/
abbrev State.Inv (s : State) : Prop :=
  s.BusyIsInFlight ∧ s.RecordIsCmd ∧ s.IdleIsClean ∧ s.BusyNotDone ∧ s.ErrcodeOk

/-- What every completion leaves (R42): IDLE, DONE, no record, clean working storage. -/
abbrev State.Completed (s : State) : Prop :=
  s.status.busy = false ∧ s.status.done = true ∧ s.inflight = none ∧ s.hidden = Hidden.zeroed

/-- The three result flags of a state. -/
def State.flags (s : State) : Flags := ⟨s.status.carry, s.status.valid, s.status.zero⟩

/-- What a command that writes only the registers `dests` leaves as it was: every other operand
register, CMD, CTRL, ERR and ERRCODE, the parameters, and the outside world's fields. -/
abbrev State.UnchangedBut (s t : State) (dests : List Reg) : Prop :=
  (∀ r, r ∉ dests → t.reg r = s.reg r) ∧ t.cmd = s.cmd ∧ t.irqEn = s.irqEn ∧
    t.status.err = s.status.err ∧ t.status.errcode = s.status.errcode ∧ t.params = s.params ∧
    t.agenda = s.agenda ∧ t.returned = s.returned ∧ t.freeCount = s.freeCount

end Sys2Proof.Machine
end

