-- ==== Sys2Proof/Certificates/Slice0/RingSpec.lean ====
section
/-! DEFINITION. The curve rules' formulas over any commutative ring, with no reduction in between:
what the statements hold the block's modular arithmetic against. A result modulo a prime `p` is the
formula's value in `ZMod p`. -/

namespace Sys2Proof.Ring

open Sys2Proof

/-- The ladder's working values: `x2, z2, x3, z3` (43_curve25519_ladder.md R190). -/
abbrev Quad (R : Type) := R × R × R × R

/-- The arithmetic of one ladder iteration (R190), each line expanded into the inputs. -/
def ladderArith {R : Type} [CommRing R] (x1 : R) (q : Quad R) : Quad R :=
  let x2 := q.1
  let z2 := q.2.1
  let x3 := q.2.2.1
  let z3 := q.2.2.2
  let e := (x2 + z2) ^ 2 - (x2 - z2) ^ 2
  ((x2 + z2) ^ 2 * (x2 - z2) ^ 2,
   e * ((x2 + z2) ^ 2 + 121665 * e),
   ((x3 - z3) * (x2 + z2) + (x3 + z3) * (x2 - z2)) ^ 2,
   x1 * ((x3 - z3) * (x2 + z2) - (x3 + z3) * (x2 - z2)) ^ 2)

/-- The exchange of the two pairs when `s` is 1 (R190, R191). -/
def swapIf {R : Type} (s : Bool) (q : Quad R) : Quad R :=
  if s then (q.2.2.1, q.2.2.2, q.1, q.2.1) else q

/-- Iteration `t` of the ladder for scalar `k` (R190): values and pending swap. -/
def ladderIter {R : Type} [CommRing R] (k : Nat) (x1 : R) (a : Quad R × Bool) (t : Nat) :
    Quad R × Bool :=
  (ladderArith x1 (swapIf (a.2 ^^ k.testBit t) a.1), k.testBit t)

/-- The bit positions `n-1` down to 0. -/
def bitsDown (n : Nat) : List Nat := (List.range n).reverse

/-- The ladder (R190): the iterations for bits 254 down to 0, the last swap, and `x2 * z2^(p-2)`. -/
def ladder {R : Type} [CommRing R] (p k : Nat) (x1 : R) : R :=
  let a := (bitsDown 255).foldl (ladderIter k x1) ((1, 0, x1, 1), false)
  let q := swapIf a.2 a.1
  q.1 * q.2.1 ^ (p - 2)

/-- The extended doubling formula (44_ed25519_point.md R210): `(X3, Y3, Z3, T3)`. -/
def edDbl {R : Type} [CommRing R] (q : Quad R) : Quad R :=
  let x := q.1
  let y := q.2.1
  let z := q.2.2.1
  let e := x ^ 2 + y ^ 2 - (x + y) ^ 2
  let g := x ^ 2 - y ^ 2
  let f := 2 * z ^ 2 + g
  let h := x ^ 2 + y ^ 2
  (e * f, g * h, f * g, e * h)

/-- The extended addition formula (R211) with curve constant `d`: `(X3, Y3, Z3, T3)`. -/
def edAdd {R : Type} [CommRing R] (d : R) (p q : Quad R) : Quad R :=
  let a := (p.2.1 - p.1) * (q.2.1 - q.1)
  let b := (p.2.1 + p.1) * (q.2.1 + q.1)
  let c := 2 * d * p.2.2.2 * q.2.2.2
  let dd := 2 * p.2.2.1 * q.2.2.1
  ((b - a) * (dd - c), (dd + c) * (b + a), (dd - c) * (dd + c), (b - a) * (b + a))

/-- The Jacobian doubling formula for `a = -3` (45_p521_point.md R230): `(X3, Y3, Z3)`. -/
def jacDbl {R : Type} [CommRing R] (p : R × R × R) : R × R × R :=
  let x := p.1
  let y := p.2.1
  let z := p.2.2
  let alpha := 3 * (x - z ^ 2) * (x + z ^ 2)
  let x3 := alpha ^ 2 - 8 * (x * y ^ 2)
  (x3, alpha * (4 * (x * y ^ 2) - x3) - 8 * y ^ 4, 2 * y * z)

/-- The mixed addition formula (R231) before the select: `(X3, Y3, Z3)`. -/
def jacAddFormula {R : Type} [CommRing R] (p : R × R × R) (q : R × R) : R × R × R :=
  let h := q.1 * p.2.2 ^ 2 - p.1
  let r := 2 * (q.2 * p.2.2 ^ 3 - p.2.1)
  let v := 4 * p.1 * h ^ 2
  let x3 := r ^ 2 - 4 * h ^ 3 - 2 * v
  (x3, r * (v - x3) - 8 * p.2.1 * h ^ 3, (p.2.2 + h) ^ 2 - p.2.2 ^ 2 - h ^ 2)

/-- The mixed addition (R231): the second operand when the first is the point at infinity. -/
def jacAdd {R : Type} [CommRing R] [DecidableEq R] (p : R × R × R) (q : R × R) : R × R × R :=
  if p.2.2 = 0 then (q.1, q.2, 1) else jacAddFormula p q

/-- The accumulator of SMUL521 after its 521 iterations (46_scalar_mult_engine.md R250). -/
def smulAcc {R : Type} [CommRing R] [DecidableEq R] (k : Nat) (p : R × R) : R × R × R :=
  (bitsDown 521).foldl
    (fun r i => if k.testBit i then jacAdd (jacDbl r) p else jacDbl r) (1, 1, 0)

/-- The accumulator of the EDSMUL commands after their 256 iterations (R251). -/
def edsmulAcc {R : Type} [CommRing R] (d : R) (k : Nat) (p : Quad R) : Quad R :=
  (bitsDown 256).foldl
    (fun r i => if k.testBit i then edAdd d (edDbl r) p else edDbl r) (0, 1, 1, 0)

/-- Four residues as numbers. -/
def vals4 {m : Nat} (q : Quad (ZMod m)) : Nat × Nat × Nat × Nat :=
  (q.1.val, q.2.1.val, q.2.2.1.val, q.2.2.2.val)

/-- Three residues as numbers. -/
def vals3 {m : Nat} (q : ZMod m × ZMod m × ZMod m) : Nat × Nat × Nat :=
  (q.1.val, q.2.1.val, q.2.2.val)

/-- Four numbers as residues. -/
def cast4 (m : Nat) (q : Nat × Nat × Nat × Nat) : Quad (ZMod m) := (q.1, q.2.1, q.2.2.1, q.2.2.2)

/-- Three numbers as residues. -/
def cast3 (m : Nat) (q : Nat × Nat × Nat) : ZMod m × ZMod m × ZMod m := (q.1, q.2.1, q.2.2)

/-- Two numbers as residues. -/
def cast2 (m : Nat) (q : Nat × Nat) : ZMod m × ZMod m := (q.1, q.2)

/-- All four numbers are below `m`. -/
def below4 (m : Nat) (q : Nat × Nat × Nat × Nat) : Bool :=
  decide (q.1 < m ∧ q.2.1 < m ∧ q.2.2.1 < m ∧ q.2.2.2 < m)

end Sys2Proof.Ring

namespace Sys2Proof.Machine

open Sys2Proof

/-- The numbers in four consecutive operand registers. -/
def State.nums4 (s : State) (i : Reg) : Nat × Nat × Nat × Nat :=
  ((s.reg i).toNat, (s.reg (i + 1)).toNat, (s.reg (i + 2)).toNat, (s.reg (i + 3)).toNat)

/-- The numbers in three consecutive operand registers. -/
def State.nums3 (s : State) (i : Reg) : Nat × Nat × Nat :=
  ((s.reg i).toNat, (s.reg (i + 1)).toNat, (s.reg (i + 2)).toNat)

/-- The numbers in two consecutive operand registers. -/
def State.nums2 (s : State) (i : Reg) : Nat × Nat := ((s.reg i).toNat, (s.reg (i + 1)).toNat)

/-- An extended point read from registers: each number modulo `2^256` (30_encoding.md R94). -/
def State.read4 (s : State) (i : Reg) : Nat × Nat × Nat × Nat :=
  ((s.reg i).toNat % 2 ^ 256, (s.reg (i + 1)).toNat % 2 ^ 256, (s.reg (i + 2)).toNat % 2 ^ 256,
   (s.reg (i + 3)).toNat % 2 ^ 256)

/-- A Jacobian point read from registers: each number modulo `2^W521` (R94). -/
def State.read3 (s : State) (i : Reg) : Nat × Nat × Nat :=
  ((s.reg i).toNat % 2 ^ s.params.limbBits.w521, (s.reg (i + 1)).toNat % 2 ^ s.params.limbBits.w521,
   (s.reg (i + 2)).toNat % 2 ^ s.params.limbBits.w521)

/-- An affine point read from registers: each number modulo `2^W521` (R94). -/
def State.read2 (s : State) (i : Reg) : Nat × Nat :=
  ((s.reg i).toNat % 2 ^ s.params.limbBits.w521, (s.reg (i + 1)).toNat % 2 ^ s.params.limbBits.w521)

/-- The point of SMUL521 (46_scalar_mult_engine.md R250): `G`, or the group at RS2. -/
def State.point2 (s : State) : PointSrc → Nat × Nat
  | .base => (romGX521, romGY521)
  | .reg i => s.read2 i

/-- The point of the EDSMUL commands (R251): `B`, or the group at RS2. -/
def State.point4 (s : State) : PointSrc → Nat × Nat × Nat × Nat
  | .base => (romEdBX, romEdBY, 1, romEdBT)
  | .reg i => s.read4 i

/-- The u-coordinate of LADDER (43_curve25519_ladder.md R190): 9, or register RS2. -/
def State.uCoord (s : State) : PointSrc → Nat
  | .base => 9
  | .reg i => (s.reg i).toNat % 2 ^ 256

end Sys2Proof.Machine
end

