-- ==== Sys2Proof/Machine/HostMacros.lean ====
section
/-! DEFINITION. What the host side writes on the bus: the macros of 30_encoding.md R102 as sequences of
bus transactions, the value STREG gives the host, and the values of the byte buffers the host converts
(20_memory.md R69). The block itself sees neither. -/

namespace Sys2Proof.Machine

open Sys2Proof

/-- `ISSUE c` (R102). -/
def macroIssue (c : Word) : List HostEvent := [.write 0x010 c]

/-- `WAIT` (R102). -/
def macroWait : List HostEvent := [.wait]

/-- `CLRST` (R102): clear DONE and ERR. -/
def macroClrst : List HostEvent := [.write 0x00C 0x00000006]

/-- `SRESET` (R102). -/
def macroSreset : List HostEvent := [.write 0x008 0x00000001]

/-- The 18 data words of a register, in the order the macros go through them. -/
def windowWords : List (Fin 18) := List.finRange 18

/-- `LDREG rk, v` (R102). -/
def macroLdreg (k : Reg) (v : Operand) : List HostEvent :=
  windowWords.map (fun j => .write (windowAddr k j) (wordOf v j))

/-- `STREG rk` (R102). -/
def macroStreg (k : Reg) : List HostEvent :=
  windowWords.map (fun j => .read (windowAddr k j))

/-- The number of words written one after the other, the first most significant. -/
def concatWords : List Word → Nat
  | [] => 0
  | w :: rest => w.toNat * 2 ^ (32 * rest.length) + concatWords rest

/-- The value of `STREG` (R102), once its 18 reads have been answered: the concatenation of the words they
returned, word 17 most significant. `returned` holds the latest first (log 9), so word 17 leads. -/
def State.stregValue (s : State) : Operand :=
  BitVec.ofNat 576 (concatWords (s.returned.take 18))

/-- The integer of a little-endian buffer: Curve25519 and Ed25519 (R69). -/
def bufferLe : List (BitVec 8) → Nat
  | [] => 0
  | b :: rest => b.toNat + 256 * bufferLe rest

/-- The integer of a big-endian buffer: P-521 (R69). -/
def bufferBe (bs : List (BitVec 8)) : Nat := bufferLe bs.reverse

end Sys2Proof.Machine
end

