-- ==== Sys2Proof/Certificates/Slice0/Obligations.lean ====
section
/-! DEFINITION. The statements about the model, for the provers. Each docstring names the rule of spec/
it formalises. -/

open Sys2Proof Sys2Proof.Machine

/-! ## The command word -/

/-- 30_encoding.md R90, R99, R101: the decoder reads back every well-formed command from its word. -/
def Obligations.DecodeOfEncode : Prop :=
  ∀ i : Instr, i.wellFormed = true → decode (encode i) = .ok i

/-- R98, R99: a word decodes to `i` exactly when `i` is well formed and the word agrees with `i`'s
encoding on every bit that is not an ignored field. -/
def Obligations.DecodedWordsAreTheEncodings : Prop :=
  ∀ (w : Word) (i : Instr), decode w = .ok i ↔ (i.wellFormed = true ∧ w &&& i.fieldMask = encode i)

/-- R101's seven example words, and one word of each family the examples leave out, decode to the
commands they stand for. -/
def Obligations.SampleWordsDecode : Prop :=
  decode 0x00000000 = .ok .nop ∧
  decode 0x00102021 = .ok (.mmul .f25519 2 0 1) ∧
  decode 0x00214220 = .ok (.mul .f521 4 1 2) ∧
  decode 0x00043230 = .ok (.fred .f521 3 4) ∧
  decode 0x00001440 = .ok (.ladder 1 0 .base) ∧
  decode 0x00002670 = .ok (.smul521 2 0 .base) ∧
  decode 0x00804051 = .ok (.edadd 4 0 8) ∧
  decode 0x00546214 = .ok (.msub .f521 6 4 5) ∧
  decode 0x000CE131 = .ok (.bred .l25519 14 12) ∧
  decode 0x00036261 = .ok (.jadd 6 3 0)

/-- The 19 OPC values of R99. -/
def Sys2Proof.listedOpcs : List Nat :=
  [0x00, 0x10, 0x11, 0x12, 0x13, 0x14, 0x20, 0x21, 0x22, 0x30, 0x31, 0x40, 0x50, 0x51, 0x60, 0x61,
   0x70, 0x71, 0x72]

/-- Bits 7:0 of a word, as a number. -/
def Sys2Proof.opcNum (w : Word) : Nat := w.toNat % 256

/-- Bits 9:8 of a word, as a number. -/
def Sys2Proof.mselNum (w : Word) : Nat := w.toNat / 2 ^ 8 % 4

/-- The condition of R283. -/
def Sys2Proof.ReservedFieldSet (w : Word) : Prop :=
  w.toNat / 2 ^ 11 % 2 = 1 ∨ w.toNat / 2 ^ 24 ≠ 0 ∨
    (w.toNat / 2 ^ 10 % 2 = 1 ∧ opcNum w ∉ [0x40, 0x70, 0x71, 0x72])

/-- The condition of R284. -/
def Sys2Proof.MselNotAccepted (w : Word) : Prop :=
  (opcNum w = 0x30 ∧ mselNum w ∈ [1, 3]) ∨ (opcNum w = 0x31 ∧ mselNum w ∈ [0, 2]) ∨
    (opcNum w ∈ [0x40, 0x50, 0x51, 0x71, 0x72] ∧ mselNum w ≠ 0) ∨
    (opcNum w ∈ [0x60, 0x61, 0x70] ∧ mselNum w ≠ 2)

/-- The condition of R285, from the range column of R99. -/
def Sys2Proof.GroupPastEnd (w : Word) : Prop :=
  let rd := w.toNat / 2 ^ 12 % 16
  let rs1 := w.toNat / 2 ^ 16 % 16
  let rs2 := w.toNat / 2 ^ 20 % 16
  let b := w.toNat / 2 ^ 10 % 2
  (opcNum w = 0x20 ∧ 14 < rd) ∨ (opcNum w ∈ [0x30, 0x31] ∧ 14 < rs1) ∨
    (opcNum w = 0x50 ∧ (12 < rd ∨ 12 < rs1)) ∨
    (opcNum w = 0x51 ∧ (12 < rd ∨ 12 < rs1 ∨ 12 < rs2)) ∨
    (opcNum w = 0x60 ∧ (13 < rd ∨ 13 < rs1)) ∨
    (opcNum w = 0x61 ∧ (13 < rd ∨ 13 < rs1 ∨ 14 < rs2)) ∨
    (opcNum w = 0x70 ∧ (14 < rd ∨ (b = 0 ∧ 14 < rs2))) ∨
    (opcNum w ∈ [0x71, 0x72] ∧ (12 < rd ∨ (b = 0 ∧ 12 < rs2)))

/-- 60_exceptions.md R282: ILLEGAL_OPCODE exactly on the OPC values R99 does not list. -/
def Obligations.IllegalOpcodeOnReservedOpc : Prop :=
  ∀ w : Word, decode w = .error .illegalOpcode ↔ opcNum w ∉ listedOpcs

/-- R283: RESERVED_FIELD exactly on a listed OPC with a reserved bit set, or B where it is not
accepted. -/
def Obligations.ReservedFieldOnReservedBits : Prop :=
  ∀ w : Word, decode w = .error .reservedField ↔ (opcNum w ∈ listedOpcs ∧ ReservedFieldSet w)

/-- R284: ILLEGAL_MSEL exactly on the listed cases, when no reserved-field error applies. -/
def Obligations.IllegalMselOnListedCases : Prop :=
  ∀ w : Word, decode w = .error .illegalMsel ↔
    (opcNum w ∈ listedOpcs ∧ ¬ ReservedFieldSet w ∧ MselNotAccepted w)

/-- R285, R291: REG_RANGE exactly when no earlier check fails and a used group would pass `x[15]`. The
decoder answers with the first failing check and never with a busy error, and it rejects exactly the
words the issue check rejects. -/
def Obligations.RegRangeAfterAllOtherChecks : Prop :=
  ∀ w : Word,
    (decode w = .error .regRange ↔
      (opcNum w ∈ listedOpcs ∧ ¬ ReservedFieldSet w ∧ ¬ MselNotAccepted w ∧ GroupPastEnd w)) ∧
    (∀ e, decode w = .error e ↔ check w = some e) ∧
    check w ≠ some .cmdWhileBusy ∧ check w ≠ some .rfWriteWhileBusy

/-! ## Reset -/

/-- 10_state.md R44: the reset value of every element, and `irq` low. -/
def Obligations.ResetState : Prop :=
  (∀ r, State.reset.reg r = 0) ∧ State.reset.cmd = 0 ∧ State.reset.status.toWord = 0 ∧
    State.reset.ctrlWord = 0 ∧ State.reset.inflight = none ∧ State.reset.hidden = Hidden.zeroed ∧
    State.reset.irq = false ∧ State.reset.params = Config.params ∧
    State.reset.busRead 0x000 = 0x434F5245

/-- The invariant of Safety.lean holds at reset. -/
def Obligations.ResetIsSound : Prop := State.reset.Inv

/-- 10_state.md R26, 70_reset_and_hazards.md R321–R323: a write with bit 0 set to CTRL, at any of its
byte addresses, busy or not, leaves every element at its value of R44 and the parameters as they
were, whatever else the word holds; the reset input does the same (R320). The model's choices here: the
reset input is one event (log 11), and a reset keeps the model's own fields, `freeCount` (log 5),
`agenda` (log 6) and `returned` (log 9). -/
def Obligations.SoftResetClearsEverything : Prop :=
  ∀ (s : State) (a : Addr) (v : Word), a.toNat / 4 = 2 → v.toNat % 2 = 1 →
    s.busWrite a v =
        { State.reset with params := s.params, agenda := s.agenda, returned := s.returned,
                           freeCount := s.freeCount } ∧
      s.hostStep .resetPin s.agenda = s.busWrite a v

/-- 70_reset_and_hazards.md (preamble, R321, R325): nothing from before a reset survives it. Two blocks
of the same parameters, in any states, are equal after one reset each, but for the outside world's
fields; and a second reset changes nothing. -/
def Obligations.ResetForgetsThePast : Prop :=
  ∀ s₁ s₂ : State, s₁.params = s₂.params →
    s₁.doReset = { s₂.doReset with agenda := s₁.agenda, returned := s₁.returned,
                                   freeCount := s₁.freeCount } ∧
      s₁.doReset.doReset = s₁.doReset

/-! ## The step -/

/-- Every step keeps the invariant (10_state.md R31, R33, R34, R30, R40). -/
def Obligations.StepKeepsSoundness : Prop :=
  ∀ s t : State, s.Inv → step s = .next t → t.Inv

/-- 60_exceptions.md R292: from a sound state the machine never stops. (The stop it excludes is the model's
own, log 7.) -/
def Obligations.SoundStatesNeverStop : Prop :=
  ∀ s : State, s.Inv → ∃ t, step s = .next t

/-- 10_state.md R23, R42: when a command is in flight and its cycles have run out, the step is `exec` of
the command CMD decodes to, at that state; the machine adds nothing around it (log 7). -/
def Obligations.StepRunsTheDecodedCommand : Prop :=
  ∀ (s : State) (f : InFlight) (i : Instr), s.status.busy = true → s.inflight = some f →
    f.cycles = 0 → decode s.cmd = .ok i → step s = exec i s

/-- R330, R42: from a sound busy state with nothing pending from outside, the command in flight
completes, with its own effect, after at most `LAT` cycles and one completion step. That a step with an
empty agenda is a cycle is the model's choice (log 6). -/
def Obligations.AcceptedCommandCompletesInTime : Prop :=
  ∀ (s : State) (f : InFlight), s.Inv → s.inflight = some f → s.agenda = [] →
    f.cycles ≤ s.latency s.cmd ∧
    ∃ (i : Instr) (t u : State), decode s.cmd = .ok i ∧ exec i s = .next t ∧
      core.run (f.cycles + 1) s = .next u ∧ u.Completed ∧
      u = { t with freeCount := u.freeCount }

/-- R40, R31: a step from BUSY to IDLE is a completion or a reset; a step from IDLE to BUSY is a write to
CMD, at any of its byte addresses, of a word that passes its check. The agenda's head is the host's next
action (the model's field, log 6), here and in the next three statements. -/
def Obligations.BusyChangesOnlyByIssueCompletionReset : Prop :=
  ∀ s t : State, step s = .next t →
    (s.status.busy = true → t.status.busy = false →
      s.engineReady = true ∨ s.agenda.head? = some .resetPin ∨
        ∃ a v, s.agenda.head? = some (.write a v) ∧ a.toNat / 4 = 2 ∧ v.toNat % 2 = 1) ∧
    (s.status.busy = false → t.status.busy = true →
      ∃ a v, s.agenda.head? = some (.write a v) ∧ a.toNat / 4 = 4 ∧ check v = none)

/-- R30: ERR goes to 0 only by a write of STATUS bit 2 or a reset; ERRCODE keeps its value while ERR
stays 1, and is 0 when ERR has gone to 0. -/
def Obligations.ErrClearedOnlyByHostOrReset : Prop :=
  ∀ s t : State, step s = .next t → s.status.err = true →
    (t.status.err = false →
      t.status.errcode = 0 ∧
      (s.agenda.head? = some .resetPin ∨
        ∃ a v, s.agenda.head? = some (.write a v) ∧
          ((a.toNat / 4 = 2 ∧ v.toNat % 2 = 1) ∨ (a.toNat / 4 = 3 ∧ v.toNat / 4 % 2 = 1)))) ∧
    (t.status.err = true → t.status.errcode = s.status.errcode)

/-- 20_memory.md R67, R74, 10_state.md R21: an operand register changes only by a completion, by a write
to one of its own data words while IDLE, or by a reset. -/
def Obligations.OperandsChangeOnlyByCompletionIdleWriteReset : Prop :=
  ∀ (s t : State) (r : Reg), step s = .next t → t.reg r ≠ s.reg r →
    s.engineReady = true ∨ s.agenda.head? = some .resetPin ∨
      ∃ a v, s.agenda.head? = some (.write a v) ∧
        ((a.toNat / 4 = 2 ∧ v.toNat % 2 = 1) ∨
          (s.status.busy = false ∧ ∃ j : Fin 18, a.toNat / 4 = 512 + 32 * r.val + j.val))

/-- R24, R286: CMD changes only by a write to CMD while IDLE, which stores the whole word whether or not
it passes its check, or by a reset. -/
def Obligations.CmdHoldsTheLastIdleWrite : Prop :=
  ∀ s t : State, step s = .next t →
    (t.cmd ≠ s.cmd →
      s.agenda.head? = some .resetPin ∨
        ∃ a v, s.agenda.head? = some (.write a v) ∧
          ((a.toNat / 4 = 2 ∧ v.toNat % 2 = 1) ∨
            (a.toNat / 4 = 4 ∧ s.status.busy = false ∧ t.cmd = v))) ∧
    t.params = s.params

/-- 10_state.md R34: no rule reads the working storage. Whatever it holds, every step does the same to
everything else. (Its contents while BUSY are free values, log 5.) -/
def Obligations.WorkingStorageIsNeverRead : Prop :=
  ∀ (s t : State) (h : Hidden), step s = .next t →
    ∃ h', step { s with hidden := h } = .next { t with hidden := h' }

/-! ## The bus -/

/-- 10_state.md R24–R28: what the five registers read as, at any of their byte addresses. -/
def Obligations.ControlRegistersRead : Prop :=
  ∀ (s : State) (a : Addr),
    (a.toNat / 4 = 0 → s.busRead a = 0x434F5245) ∧
    (a.toNat / 4 = 1 → (s.busRead a).toNat =
      s.params.limbBits.toNat + 2 ^ 8 * 16 + 2 ^ 16 * s.params.limbBits.w521) ∧
    (a.toNat / 4 = 2 → (s.busRead a).toNat = 2 * s.irqEn.toNat) ∧
    (a.toNat / 4 = 3 → (s.busRead a).toNat =
      s.status.busy.toNat + 2 * s.status.done.toNat + 4 * s.status.err.toNat +
        8 * s.status.carry.toNat + 16 * s.status.valid.toNat + 32 * s.status.zero.toNat +
        2 ^ 8 * s.status.errcode.toNat) ∧
    (a.toNat / 4 = 4 → s.busRead a = s.cmd)

/-- 20_memory.md R64, R65: reserved offsets and the reserved words of the window read 0, and writes to
them, and to ID and PARAM, change nothing while IDLE; below the window, nothing while BUSY either. -/
def Obligations.ReservedOffsetsReadZeroIgnoreWrites : Prop :=
  ∀ (s : State) (a : Addr) (v : Word),
    ((5 ≤ a.toNat / 4 ∧ a.toNat / 4 < 512) ∨ (512 ≤ a.toNat / 4 ∧ 18 ≤ a.toNat / 4 % 32) →
      s.busRead a = 0) ∧
    (a.toNat / 4 < 2 ∨ (5 ≤ a.toNat / 4 ∧ a.toNat / 4 < 512) → s.busWrite a v = s) ∧
    (512 ≤ a.toNat / 4 → 18 ≤ a.toNat / 4 % 32 → s.status.busy = false → s.busWrite a v = s)

/-- R65, R66: word `j` of `x[k]` is its bits `32j+31 : 32j` while IDLE, and reads 0 while BUSY. -/
def Obligations.WindowReadsTheRegisterWord : Prop :=
  ∀ (s : State) (a : Addr) (k : Reg) (j : Fin 18), a.toNat / 4 = 512 + 32 * k.val + j.val →
    (s.busRead a).toNat =
      if s.status.busy then 0 else (s.reg k).toNat / 2 ^ (32 * j.val) % 2 ^ 32

/-- R67: an IDLE write to word `j` of `x[k]` replaces that word; the other 17 words, every other register
and all other state are unchanged. -/
def Obligations.WindowWriteReplacesOneWord : Prop :=
  ∀ (s : State) (a : Addr) (k : Reg) (j : Fin 18) (v : Word), s.status.busy = false →
    a.toNat / 4 = 512 + 32 * k.val + j.val →
    ∃ y : RegFile, s.busWrite a v = { s with x := y } ∧
      (∀ r, r ≠ k → (s.busWrite a v).reg r = s.reg r) ∧
      ((s.busWrite a v).reg k).toNat / 2 ^ (32 * j.val) % 2 ^ 32 = v.toNat ∧
      ∀ j' : Fin 18, j' ≠ j →
        ((s.busWrite a v).reg k).toNat / 2 ^ (32 * j'.val) % 2 ^ 32 =
          (s.reg k).toNat / 2 ^ (32 * j'.val) % 2 ^ 32

/-- 60_exceptions.md R286, R287, R290, R288: while BUSY, a write to CMD is dropped and recorded with code
0x05, and a write to the window, its reserved words too, with code 0x06; the first code is kept, and
nothing else changes. -/
def Obligations.BusyWritesAreDroppedAndRecorded : Prop :=
  ∀ (s : State) (a : Addr) (v : Word), s.status.busy = true →
    (a.toNat / 4 = 4 → s.busWrite a v =
      { s with status := { s.status with
          err := true, errcode := if s.status.err then s.status.errcode else 0x05 } }) ∧
    (512 ≤ a.toNat / 4 → s.busWrite a v =
      { s with status := { s.status with
          err := true, errcode := if s.status.err then s.status.errcode else 0x06 } })

/-- R289, R288, 10_state.md R41, R24: an IDLE write to CMD of a word that fails its check stores the
word, sets DONE and ERR, records the code 0x01 to 0x04 if ERR was 0, and changes nothing else. -/
def Obligations.RejectedCommandSetsDoneAndErr : Prop :=
  ∀ (s : State) (a : Addr) (v : Word) (e : ErrCode), s.status.busy = false → a.toNat / 4 = 4 →
    decode v = .error e →
    s.busWrite a v =
      { s with cmd := v, status := { s.status with
          done := true, err := true,
          errcode := if s.status.err then s.status.errcode else
            match e with
            | .illegalOpcode => 0x01
            | .reservedField => 0x02
            | .illegalMsel => 0x03
            | .regRange => 0x04
            | .cmdWhileBusy => 0x05
            | .rfWriteWhileBusy => 0x06 } }

/-- 10_state.md R41: an IDLE write to CMD of a word that passes its check stores the word, clears DONE,
sets BUSY and makes the in-flight record with `LAT` cycles to run; the operands, the flags, ERR,
ERRCODE and CTRL are unchanged. The working storage takes a free value (log 5). -/
def Obligations.AcceptedCommandGoesInFlight : Prop :=
  ∀ (s : State) (a : Addr) (v : Word) (i : Instr), s.status.busy = false → a.toNat / 4 = 4 →
    decode v = .ok i →
    ∃ h n, s.busWrite a v =
      { s with cmd := v, status := { s.status with done := false, busy := true },
               inflight := some ⟨v, s.latency v⟩, hidden := h, freeCount := n }

/-- 10_state.md R25: a write to STATUS clears DONE on bit 1, ERR and ERRCODE on bit 2, and changes nothing
else, whatever the word's other bits and whether or not a command is in flight. -/
def Obligations.StatusWriteOneToClear : Prop :=
  ∀ (s : State) (a : Addr) (v : Word), a.toNat / 4 = 3 →
    s.busWrite a v =
      { s with status := { s.status with
          done := if v.toNat / 2 % 2 = 1 then false else s.status.done,
          err := if v.toNat / 4 % 2 = 1 then false else s.status.err,
          errcode := if v.toNat / 4 % 2 = 1 then 0 else s.status.errcode } }

/-- 20_memory.md R71: a host read changes no state of the block; the host receives the word (the fields
`agenda` and `returned` are the model's, logs 6 and 9). -/
def Obligations.ReadsHaveNoSideEffect : Prop :=
  ∀ (s : State) (a : Addr) (rest : List HostEvent), s.engineReady = false →
    s.agenda = .read a :: rest →
    step s = .next { s with agenda := rest, returned := s.busRead a :: s.returned }

/-- 20_memory.md R66, 10_state.md R34, 60_exceptions.md R301: while BUSY no read returns anything of the
operands or of the working storage. -/
def Obligations.BusyReadsRevealNoOperand : Prop :=
  ∀ (s : State) (y : RegFile) (h : Hidden) (a : Addr), s.status.busy = true →
    { s with x := y, hidden := h }.busRead a = s.busRead a

/-- 10_state.md R32, R26, R293: writing CTRL with bit 0 clear sets IRQ_EN from bit 1 and nothing else;
after it `irq` is that bit and DONE or ERR; a completion with IRQ_EN set raises it, and clearing DONE
and ERR lowers it. -/
def Obligations.InterruptLine : Prop :=
  ∀ (s : State) (a : Addr) (v : Word), a.toNat / 4 = 2 → v.toNat % 2 = 0 →
    s.busWrite a v = { s with irqEn := decide (v.toNat / 2 % 2 = 1) } ∧
    ((s.busWrite a v).irq = true ↔
      v.toNat / 2 % 2 = 1 ∧ (s.status.done = true ∨ s.status.err = true)) ∧
    (∀ i t, exec i s = .next t → t.irq = s.irqEn) ∧
    (s.busWrite 0x00C 0x00000006).irq = false

/-- 70_reset_and_hazards.md R330, R331: `LAT` is at least 1, and for every opcode but EDSMUL_VT it depends
on the word's OPC and MSEL alone, never on the operands or the state. -/
def Obligations.LatencyIgnoresOperands : Prop :=
  (∀ (s : State) (v : Word), 1 ≤ s.latency v) ∧
  ∀ (s₁ s₂ : State) (v₁ v₂ : Word), s₁.params = s₂.params → v₁.toNat % 2 ^ 10 = v₂.toNat % 2 ^ 10 →
    opcNum v₁ ≠ 0x72 → s₁.latency v₁ = s₂.latency v₂

/-- 30_encoding.md R102, 20_memory.md R65, R67: LDREG, run from an IDLE state, puts `v` in `x[k]` and
leaves every other register, after its 18 transactions (one step each, log 6). STREG, run from an IDLE
state, gives the host the value of `x[k]`, the concatenation of the words read with word 17 most
significant, and changes nothing of the block (`returned` is the model's, log 9). -/
def Obligations.LdregLoadsTheRegister : Prop :=
  ∀ (s : State) (k : Reg) (rest : List HostEvent), s.status.busy = false →
    (∀ v : Operand, s.agenda = macroLdreg k v ++ rest →
      ∃ t, core.run 18 s = .next t ∧ t.reg k = v ∧ (∀ r, r ≠ k → t.reg r = s.reg r) ∧
        t = { s with x := t.x, agenda := rest }) ∧
    (s.agenda = macroStreg k ++ rest →
      ∃ t, core.run 18 s = .next t ∧ t.stregValue = s.reg k ∧
        t = { s with agenda := rest, returned := t.returned })

/-! ## The commands

Each result statement says of one row of R99: its OPC value; that the command completes, with the
registers and flags it writes; and its frame. -/

/-- The model's choice (log 7): a term that is no command (its MSEL or a group is not one R99 accepts, R284,
R285) is refused by that name. R292: every other completes. -/
def Obligations.OnlyIllFormedTermsAreRefused : Prop :=
  ∀ (i : Instr) (s : State), (i.wellFormed = false → exec i s = .refused .illFormed) ∧
    (i.wellFormed = true → ∃ t, exec i s = .next t)

/-- 30_encoding.md R92, 00_scope.md R6, R10: the four moduli, and the widths for each limb width. -/
def Obligations.ModulusAndWidth : Prop :=
  (modulus .f25519 = 2 ^ 255 - 19 ∧
    modulus .l25519 = 2 ^ 252 + 27742317777372353535851937790883648493 ∧
    modulus .f521 = 2 ^ 521 - 1 ∧
    modulus .q521 =
      0x1fffffffffffffffffffffffffffffffffffffffffffffffffffffffffffffffffa51868783bf2f966b7fcc0148f709a5d03bb5c9b8899c47aebb6fb71e91386409) ∧
  ∀ s : State, s.width .f25519 = 256 ∧ s.width .l25519 = 256 ∧ s.width .q521 = s.width .f521 ∧
    s.width .f521 = (match s.params.limbBits with
      | .b8 => 528
      | .b16 => 528
      | .b32 => 544
      | .b64 => 576)

/-- 47_control.md R270: NOP completes; no register and no flag is written. -/
def Obligations.NopResult : Prop :=
  ∀ s : State,
    opcNum (encode .nop) = 0x00 ∧
    ∃ t, exec .nop s = .next t ∧ t.Completed ∧ s.UnchangedBut t [] ∧ t.flags = s.flags

/-- 40_limb_adder_subtractor.md R130. -/
def Obligations.AddResult : Prop :=
  ∀ (m : Msel) (rd rs1 rs2 : Reg) (s : State),
    let w := s.width m
    let sum := (s.reg rs1).toNat % 2 ^ w + (s.reg rs2).toNat % 2 ^ w
    opcNum (encode (.add m rd rs1 rs2)) = 0x10 ∧
    ∃ t, exec (.add m rd rs1 rs2) s = .next t ∧ t.Completed ∧ s.UnchangedBut t [rd] ∧
      (t.reg rd).toNat = sum % 2 ^ w ∧
      t.flags = ⟨decide (2 ^ w ≤ sum), true, decide (sum % 2 ^ w = 0)⟩

/-- R131: the difference wraps modulo `2^W`; CARRY is the borrow. -/
def Obligations.SubResult : Prop :=
  ∀ (m : Msel) (rd rs1 rs2 : Reg) (s : State),
    let w := s.width m
    let a := (s.reg rs1).toNat % 2 ^ w
    let b := (s.reg rs2).toNat % 2 ^ w
    opcNum (encode (.sub m rd rs1 rs2)) = 0x11 ∧
    ∃ t, exec (.sub m rd rs1 rs2) s = .next t ∧ t.Completed ∧ s.UnchangedBut t [rd] ∧
      (t.reg rd).toNat = (if a < b then a + 2 ^ w - b else a - b) ∧
      t.flags = ⟨decide (a < b), true, decide (a = b)⟩

/-- R132: one trial subtraction of the modulus. That VALID is `a < m` is R132's Flags line, which the
model follows against decision D19 and file 91, which say `x < 2m`: the VALID clause is the model's
reading (log 13). -/
def Obligations.RquickResult : Prop :=
  ∀ (m : Msel) (rd rs1 : Reg) (s : State),
    let a := (s.reg rs1).toNat % 2 ^ s.width m
    opcNum (encode (.rquick m rd rs1)) = 0x12 ∧
    ∃ t, exec (.rquick m rd rs1) s = .next t ∧ t.Completed ∧ s.UnchangedBut t [rd] ∧
      (t.reg rd).toNat = (if modulus m ≤ a then a - modulus m else a) ∧
      t.flags = ⟨decide (a < modulus m), decide (a < modulus m), decide ((t.reg rd).toNat = 0)⟩

/-- R133: the exact residue of the sum; VALID says both operands were canonical. -/
def Obligations.MaddResult : Prop :=
  ∀ (m : Msel) (rd rs1 rs2 : Reg) (s : State),
    let a := (s.reg rs1).toNat % 2 ^ s.width m
    let b := (s.reg rs2).toNat % 2 ^ s.width m
    opcNum (encode (.madd m rd rs1 rs2)) = 0x13 ∧
    ∃ t, exec (.madd m rd rs1 rs2) s = .next t ∧ t.Completed ∧ s.UnchangedBut t [rd] ∧
      (t.reg rd).toNat = (a + b) % modulus m ∧
      t.flags = ⟨false, decide (a < modulus m ∧ b < modulus m), decide ((a + b) % modulus m = 0)⟩

/-- R134: the residue of the difference, in `[0, m)`, as an integer congruence. -/
def Obligations.MsubResult : Prop :=
  ∀ (m : Msel) (rd rs1 rs2 : Reg) (s : State),
    let a := (s.reg rs1).toNat % 2 ^ s.width m
    let b := (s.reg rs2).toNat % 2 ^ s.width m
    opcNum (encode (.msub m rd rs1 rs2)) = 0x14 ∧
    ∃ t, exec (.msub m rd rs1 rs2) s = .next t ∧ t.Completed ∧ s.UnchangedBut t [rd] ∧
      (t.reg rd).toNat < modulus m ∧
      ((t.reg rd).toNat : Int) ≡ (a : Int) - (b : Int) [ZMOD (modulus m : Int)] ∧
      t.flags = ⟨false, decide (a < modulus m ∧ b < modulus m), decide ((t.reg rd).toNat = 0)⟩

/-- 41_montgomery_multiplier.md R150: the exact double-width product, in the pair `rd`, `rd+1`. -/
def Obligations.MulResult : Prop :=
  ∀ (m : Msel) (rd rs1 rs2 : Reg) (s : State), rd.val ≤ 14 →
    let w := s.width m
    let p := (s.reg rs1).toNat % 2 ^ w * ((s.reg rs2).toNat % 2 ^ w)
    opcNum (encode (.mul m rd rs1 rs2)) = 0x20 ∧
    ∃ t, exec (.mul m rd rs1 rs2) s = .next t ∧ t.Completed ∧ s.UnchangedBut t [rd, rd + 1] ∧
      (t.reg rd).toNat < 2 ^ w ∧ (t.reg (rd + 1)).toNat < 2 ^ w ∧
      (t.reg (rd + 1)).toNat * 2 ^ w + (t.reg rd).toNat = p ∧
      t.flags = ⟨false, true, decide (p = 0)⟩

/-- R151, R153: the plain residue of the product, with no Montgomery factor. -/
def Obligations.MmulResult : Prop :=
  ∀ (m : Msel) (rd rs1 rs2 : Reg) (s : State),
    let a := (s.reg rs1).toNat % 2 ^ s.width m
    let b := (s.reg rs2).toNat % 2 ^ s.width m
    opcNum (encode (.mmul m rd rs1 rs2)) = 0x21 ∧
    ∃ t, exec (.mmul m rd rs1 rs2) s = .next t ∧ t.Completed ∧ s.UnchangedBut t [rd] ∧
      (t.reg rd).toNat = a * b % modulus m ∧
      t.flags = ⟨false, decide (a < modulus m ∧ b < modulus m), decide (a * b % modulus m = 0)⟩

/-- R152, 00_scope.md R8: the Fermat inverse `a^(m-2) mod m`. That VALID also asks for `a ≠ 0` is R152's
Flags line, which the model follows against 93_implementation_defined.md row 17, which says range only:
the VALID clause is the model's reading (log 14). -/
def Obligations.MinvResult : Prop :=
  ∀ (m : Msel) (rd rs1 : Reg) (s : State),
    let a := (s.reg rs1).toNat % 2 ^ s.width m
    opcNum (encode (.minv m rd rs1)) = 0x22 ∧
    ∃ t, exec (.minv m rd rs1) s = .next t ∧ t.Completed ∧ s.UnchangedBut t [rd] ∧
      (t.reg rd).toNat = a ^ (modulus m - 2) % modulus m ∧
      t.flags = ⟨false, decide (a < modulus m ∧ a ≠ 0), decide ((t.reg rd).toNat = 0)⟩

/-- 42_reduction.md R170: the exact residue of the pair modulo the field prime. -/
def Obligations.FredResult : Prop :=
  ∀ (m : Msel) (rd rs1 : Reg) (s : State), m = .f25519 ∨ m = .f521 → rs1.val ≤ 14 →
    let w := s.width m
    let v := (s.reg (rs1 + 1)).toNat % 2 ^ w * 2 ^ w + (s.reg rs1).toNat % 2 ^ w
    opcNum (encode (.fred m rd rs1)) = 0x30 ∧
    ∃ t, exec (.fred m rd rs1) s = .next t ∧ t.Completed ∧ s.UnchangedBut t [rd] ∧
      (t.reg rd).toNat = v % modulus m ∧
      t.flags = ⟨false, true, decide (v % modulus m = 0)⟩

/-- R171: the exact residue of the pair modulo the group order. -/
def Obligations.BredResult : Prop :=
  ∀ (m : Msel) (rd rs1 : Reg) (s : State), m = .l25519 ∨ m = .q521 → rs1.val ≤ 14 →
    let w := s.width m
    let v := (s.reg (rs1 + 1)).toNat % 2 ^ w * 2 ^ w + (s.reg rs1).toNat % 2 ^ w
    opcNum (encode (.bred m rd rs1)) = 0x31 ∧
    ∃ t, exec (.bred m rd rs1) s = .next t ∧ t.Completed ∧ s.UnchangedBut t [rd] ∧
      (t.reg rd).toNat = v % modulus m ∧
      t.flags = ⟨false, true, decide (v % modulus m = 0)⟩

/-- 43_curve25519_ladder.md R190, R192, R193: LADDER's result is the ladder's value in the field of
`2^255 - 19` elements, on the masked input; VALID says the masked input was canonical. -/
def Obligations.LadderResult : Prop :=
  ∀ (rd rs1 : Reg) (u : PointSrc) (s : State),
    let k := (s.reg rs1).toNat % 2 ^ 256
    let um : Nat := s.uCoord u % 2 ^ 255
    opcNum (encode (.ladder rd rs1 u)) = 0x40 ∧
    ∃ t, exec (.ladder rd rs1 u) s = .next t ∧ t.Completed ∧ s.UnchangedBut t [rd] ∧
      (t.reg rd).toNat = (Ring.ladder romP25519 k (um : ZMod romP25519)).val ∧
      t.flags = ⟨false, decide (um < romP25519), decide ((t.reg rd).toNat = 0)⟩

/-- 44_ed25519_point.md R210. -/
def Obligations.EddblResult : Prop :=
  ∀ (rd rs1 : Reg) (s : State), rd.val ≤ 12 → rs1.val ≤ 12 →
    opcNum (encode (.eddbl rd rs1)) = 0x50 ∧
    ∃ t, exec (.eddbl rd rs1) s = .next t ∧ t.Completed ∧
      s.UnchangedBut t [rd, rd + 1, rd + 2, rd + 3] ∧
      t.nums4 rd = Ring.vals4 (Ring.edDbl (Ring.cast4 romP25519 (s.read4 rs1))) ∧
      t.flags = ⟨false, Ring.below4 romP25519 (s.read4 rs1), decide ((t.reg (rd + 2)).toNat = 0)⟩

/-- R211. -/
def Obligations.EdaddResult : Prop :=
  ∀ (rd rs1 rs2 : Reg) (s : State), rd.val ≤ 12 → rs1.val ≤ 12 → rs2.val ≤ 12 →
    opcNum (encode (.edadd rd rs1 rs2)) = 0x51 ∧
    ∃ t, exec (.edadd rd rs1 rs2) s = .next t ∧ t.Completed ∧
      s.UnchangedBut t [rd, rd + 1, rd + 2, rd + 3] ∧
      t.nums4 rd = Ring.vals4 (Ring.edAdd (romEdD : ZMod romP25519)
        (Ring.cast4 romP25519 (s.read4 rs1)) (Ring.cast4 romP25519 (s.read4 rs2))) ∧
      t.flags = ⟨false, Ring.below4 romP25519 (s.read4 rs1) && Ring.below4 romP25519 (s.read4 rs2),
        decide ((t.reg (rd + 2)).toNat = 0)⟩

/-- 45_p521_point.md R230, with `Z3 = 2*Y1*Z1`. -/
def Obligations.JdblResult : Prop :=
  ∀ (rd rs1 : Reg) (s : State), rd.val ≤ 13 → rs1.val ≤ 13 →
    let p := s.read3 rs1
    opcNum (encode (.jdbl rd rs1)) = 0x60 ∧
    ∃ t, exec (.jdbl rd rs1) s = .next t ∧ t.Completed ∧ s.UnchangedBut t [rd, rd + 1, rd + 2] ∧
      t.nums3 rd = Ring.vals3 (Ring.jacDbl (Ring.cast3 romP521 p)) ∧
      t.flags = ⟨false, decide (p.1 < romP521 ∧ p.2.1 < romP521 ∧ p.2.2 < romP521),
        decide ((t.reg (rd + 2)).toNat = 0)⟩

/-- R231, with the second operand selected when the first is the point at infinity. -/
def Obligations.JaddResult : Prop :=
  ∀ (rd rs1 rs2 : Reg) (s : State), rd.val ≤ 13 → rs1.val ≤ 13 → rs2.val ≤ 14 →
    let p := s.read3 rs1
    let q := s.read2 rs2
    opcNum (encode (.jadd rd rs1 rs2)) = 0x61 ∧
    ∃ t, exec (.jadd rd rs1 rs2) s = .next t ∧ t.Completed ∧
      s.UnchangedBut t [rd, rd + 1, rd + 2] ∧
      t.nums3 rd = Ring.vals3 (Ring.jacAdd (Ring.cast3 romP521 p) (Ring.cast2 romP521 q)) ∧
      t.flags = ⟨false, decide (p.1 < romP521 ∧ p.2.1 < romP521 ∧ p.2.2 < romP521 ∧
        q.1 < romP521 ∧ q.2 < romP521), decide ((t.reg (rd + 2)).toNat = 0)⟩

/-- R232, 45_p521_point.md: adding a point to itself gives `(0, 0, 0)`; adding a point to its negative
gives `(r^2, -r^3, 0)`. `P1 = P2` and `P1 = -P2` are read through the affine meaning of `P1`. -/
def Obligations.JaddExceptionalCases : Prop :=
  ∀ p : ZMod romP521 × ZMod romP521 × ZMod romP521, ∀ q : ZMod romP521 × ZMod romP521,
    p.2.2 ≠ 0 → q.1 * p.2.2 ^ 2 = p.1 →
    (q.2 * p.2.2 ^ 3 = p.2.1 →
      jacAdd ⟨p.1.val, p.2.1.val, p.2.2.val⟩ ⟨q.1.val, q.2.val⟩ = ⟨0, 0, 0⟩) ∧
    (q.2 * p.2.2 ^ 3 = -p.2.1 →
      let r := 2 * (q.2 * p.2.2 ^ 3 - p.2.1)
      jacAdd ⟨p.1.val, p.2.1.val, p.2.2.val⟩ ⟨q.1.val, q.2.val⟩ = ⟨(r ^ 2).val, (-r ^ 3).val, 0⟩)

/-- 46_scalar_mult_engine.md R250, R255: SMUL521's accumulator is the double-and-add of bits 520 to 0 in
the field of `2^521 - 1` elements, and the output its affine form, `(0, 0)` for infinity. -/
def Obligations.Smul521Result : Prop :=
  ∀ (rd rs1 : Reg) (p : PointSrc) (s : State), rd.val ≤ 14 →
    (∀ r, p = .reg r → r.val ≤ 14) →
    let k := (s.reg rs1).toNat % 2 ^ s.params.limbBits.w521
    let q := s.point2 p
    let acc := Ring.smulAcc k (Ring.cast2 romP521 q)
    let zi := acc.2.2 ^ (romP521 - 2)
    opcNum (encode (.smul521 rd rs1 p)) = 0x70 ∧
    ∃ t, exec (.smul521 rd rs1 p) s = .next t ∧ t.Completed ∧ s.UnchangedBut t [rd, rd + 1] ∧
      t.nums2 rd = ((acc.1 * zi ^ 2).val, (acc.2.1 * zi ^ 3).val) ∧
      t.flags = ⟨false, decide (q.1 < romP521 ∧ q.2 < romP521), decide (acc.2.2 = 0)⟩

/-- R251, R253, R255: EDSMUL_CT's result is the double-and-add of bits 255 to 0 in the field of
`2^255 - 19` elements. -/
def Obligations.EdsmulCtResult : Prop :=
  ∀ (rd rs1 : Reg) (p : PointSrc) (s : State), rd.val ≤ 12 →
    (∀ r, p = .reg r → r.val ≤ 12) →
    let k := (s.reg rs1).toNat % 2 ^ 256
    let q := s.point4 p
    opcNum (encode (.edsmulCt rd rs1 p)) = 0x71 ∧
    ∃ t, exec (.edsmulCt rd rs1 p) s = .next t ∧ t.Completed ∧
      s.UnchangedBut t [rd, rd + 1, rd + 2, rd + 3] ∧
      t.nums4 rd = Ring.vals4 (Ring.edsmulAcc (romEdD : ZMod romP25519) k (Ring.cast4 romP25519 q)) ∧
      t.flags = ⟨false, Ring.below4 romP25519 q, decide ((t.reg (rd + 2)).toNat = 0)⟩

/-- R252: EDSMUL_VT completes, and its register and flag results are those of EDSMUL_CT for every input:
the two leave the same state. -/
def Obligations.EdsmulVtEqualsEdsmulCt : Prop :=
  ∀ (rd rs1 : Reg) (p : PointSrc) (s : State), rd.val ≤ 12 →
    (∀ r, p = .reg r → r.val ≤ 12) →
    opcNum (encode (.edsmulVt rd rs1 p)) = 0x72 ∧
    ∃ t, exec (.edsmulVt rd rs1 p) s = .next t ∧ exec (.edsmulCt rd rs1 p) s = .next t ∧
      t.Completed ∧ s.UnchangedBut t [rd, rd + 1, rd + 2, rd + 3]

/-! ## Results across commands -/

/-- 41_montgomery_multiplier.md R151, 42_reduction.md R170, R171: MUL into a pair and then FRED (a field
prime) or BRED (a group order) of that pair gives what MMUL gives, on every limb width. -/
def Obligations.MulThenReduceIsMmul : Prop :=
  ∀ (m : Msel) (rp rd rs1 rs2 : Reg) (s t u v : State), rp.val ≤ 14 →
    exec (.mul m rp rs1 rs2) s = .next t →
    exec (if m = .f25519 ∨ m = .f521 then .fred m rd rp else .bred m rd rp) t = .next u →
    exec (.mmul m rd rs1 rs2) s = .next v → u.reg rd = v.reg rd

/-- 40_limb_adder_subtractor.md R133: for canonical operands MADD is ADD followed by RQUICK. -/
def Obligations.AddThenRquickIsMadd : Prop :=
  ∀ (m : Msel) (rd rs1 rs2 : Reg) (s t u v : State),
    s.src m rs1 < modulus m → s.src m rs2 < modulus m →
    exec (.add m rd rs1 rs2) s = .next t → exec (.rquick m rd rd) t = .next u →
    exec (.madd m rd rs1 rs2) s = .next v → u.reg rd = v.reg rd

/-- 43_curve25519_ladder.md R190, R192, R193 (corner cases): bit 255 of the scalar and bit 255 of `u` do
not matter, and a scalar 0 or an input 0 gives 0. -/
def Obligations.LadderCornerCases : Prop :=
  ∀ (rd : Reg) (k u : Nat),
    ladderResult rd k u = ladderResult rd (k % 2 ^ 255) (u % 2 ^ 255) ∧
    (ladderResult rd 0 u).writes = [(rd, 0)] ∧ (ladderResult rd k 0).writes = [(rd, 0)]

/-- 46_scalar_mult_engine.md R250, R251 (corner cases): scalar 0 gives infinity, `(0, 0)` after
conversion, and the identity `(0, -1, -1, 0)`; scalar 1 gives SMUL521's point. -/
def Obligations.ScalarEngineCornerCases : Prop :=
  ∀ (p : Aff) (q : Ext),
    (smulAcc 0 p).z = 0 ∧ (smulAcc 0 p).toAffine = ⟨0, 0⟩ ∧
    (smulAcc 1 p).toAffine = ⟨p.x % romP521, p.y % romP521⟩ ∧
    edsmulLoopCt q 0 256 Ext.identity = ⟨0, romP25519 - 1, romP25519 - 1, 0⟩

/-- 44_ed25519_point.md R211, R210: both point formulas answer a tuple with `X3*Y3 = Z3*T3`. -/
def Obligations.ExtendedCoordinatesConsistent : Prop :=
  ∀ p q : Ext,
    ((edDbl p).x * (edDbl p).y) % romP25519 = ((edDbl p).z * (edDbl p).t) % romP25519 ∧
    ((edAdd p q).x * (edAdd p q).y) % romP25519 = ((edAdd p q).z * (edAdd p q).t) % romP25519
end

