-- ==== Sys2Proof/Laws/Decode.lean ====
section
/-! SUPPORT. The fields of a command word as numbers and as the encoder writes them, the opcode map, and
the decoder against the issue check. -/

namespace Sys2Proof

/-! ## The fields as numbers (30_encoding.md R91) -/

theorem fieldOpc_toNat (w : Word) : (fieldOpc w).toNat = w.toNat % 2 ^ 8 := by
  simp [fieldOpc, BitVec.extractLsb'_toNat]

theorem fieldMsel_toNat (w : Word) : (fieldMsel w).toNat = w.toNat / 2 ^ 8 % 2 ^ 2 := by
  simp [fieldMsel, BitVec.extractLsb'_toNat, Nat.shiftRight_eq_div_pow]

theorem fieldRd_val (w : Word) : (fieldRd w).val = w.toNat / 2 ^ 12 % 2 ^ 4 := by
  have : (fieldRd w).val = (w.extractLsb' 12 4).toNat := rfl
  rw [this, BitVec.extractLsb'_toNat, Nat.shiftRight_eq_div_pow]

theorem fieldRs1_val (w : Word) : (fieldRs1 w).val = w.toNat / 2 ^ 16 % 2 ^ 4 := by
  have : (fieldRs1 w).val = (w.extractLsb' 16 4).toNat := rfl
  rw [this, BitVec.extractLsb'_toNat, Nat.shiftRight_eq_div_pow]

theorem fieldRs2_val (w : Word) : (fieldRs2 w).val = w.toNat / 2 ^ 20 % 2 ^ 4 := by
  have : (fieldRs2 w).val = (w.extractLsb' 20 4).toNat := rfl
  rw [this, BitVec.extractLsb'_toNat, Nat.shiftRight_eq_div_pow]

theorem fieldReservedTop_toNat (w : Word) : (fieldReservedTop w).toNat = w.toNat / 2 ^ 24 := by
  have h := w.isLt
  rw [fieldReservedTop, BitVec.extractLsb'_toNat, Nat.shiftRight_eq_div_pow]
  omega

theorem fieldB_eq (w : Word) : fieldB w = decide (w.toNat / 2 ^ 10 % 2 = 1) := by
  simp [fieldB, BitVec.getLsbD, Nat.testBit_eq_decide_div_mod_eq]

theorem fieldReserved11_eq (w : Word) : fieldReserved11 w = decide (w.toNat / 2 ^ 11 % 2 = 1) := by
  simp [fieldReserved11, BitVec.getLsbD, Nat.testBit_eq_decide_div_mod_eq]

/-! ## The fields of an encoded word (R90) -/

theorem commandWord_toNat (opc : BitVec 8) (msel : BitVec 2) (b : Bool) (rd rs1 rs2 : Reg) :
    (commandWord opc msel b rd rs1 rs2).toNat =
      opc.toNat + 2 ^ 8 * msel.toNat + 2 ^ 10 * b.toNat + 2 ^ 12 * rd.val + 2 ^ 16 * rs1.val +
        2 ^ 20 * rs2.val := by
  have h1 := opc.isLt
  have h2 := msel.isLt
  have h3 := rd.isLt
  have h4 := rs1.isLt
  have h5 := rs2.isLt
  have h6 : b.toNat < 2 ^ 1 := by cases b <;> decide
  unfold commandWord
  simp only [BitVec.toNat_append, BitVec.toNat_ofBool]
  rw [← Nat.shiftLeft_add_eq_or_of_lt h1, ← Nat.shiftLeft_add_eq_or_of_lt h2,
    ← Nat.shiftLeft_add_eq_or_of_lt h6, ← Nat.shiftLeft_add_eq_or_of_lt (by decide),
    ← Nat.shiftLeft_add_eq_or_of_lt (by exact h3), ← Nat.shiftLeft_add_eq_or_of_lt (by exact h4),
    ← Nat.shiftLeft_add_eq_or_of_lt (by exact h5)]
  simp only [Nat.shiftLeft_eq, BitVec.toNat_ofFin, BitVec.toNat_ofNat]
  omega

theorem fieldOpc_commandWord (opc : BitVec 8) (msel : BitVec 2) (b : Bool) (rd rs1 rs2 : Reg) :
    fieldOpc (commandWord opc msel b rd rs1 rs2) = opc := by
  apply BitVec.eq_of_toNat_eq
  have := opc.isLt
  rw [fieldOpc_toNat, commandWord_toNat]; omega

theorem fieldMsel_commandWord (opc : BitVec 8) (msel : BitVec 2) (b : Bool) (rd rs1 rs2 : Reg) :
    fieldMsel (commandWord opc msel b rd rs1 rs2) = msel := by
  apply BitVec.eq_of_toNat_eq
  have h1 := opc.isLt
  have h2 := msel.isLt
  have h3 : b.toNat < 2 := by cases b <;> decide
  rw [fieldMsel_toNat, commandWord_toNat]; omega

theorem fieldB_commandWord (opc : BitVec 8) (msel : BitVec 2) (b : Bool) (rd rs1 rs2 : Reg) :
    fieldB (commandWord opc msel b rd rs1 rs2) = b := by
  have h1 := opc.isLt
  have h2 := msel.isLt
  rw [fieldB_eq, commandWord_toNat]
  cases b <;> simp only [Bool.toNat_false, Bool.toNat_true, decide_eq_true_eq, decide_eq_false_iff_not] <;>
    omega

theorem fieldReserved11_commandWord (opc : BitVec 8) (msel : BitVec 2) (b : Bool)
    (rd rs1 rs2 : Reg) : fieldReserved11 (commandWord opc msel b rd rs1 rs2) = false := by
  have h1 := opc.isLt
  have h2 := msel.isLt
  have h3 : b.toNat < 2 := by cases b <;> decide
  rw [fieldReserved11_eq, commandWord_toNat, decide_eq_false_iff_not]
  omega

theorem fieldRd_commandWord (opc : BitVec 8) (msel : BitVec 2) (b : Bool) (rd rs1 rs2 : Reg) :
    fieldRd (commandWord opc msel b rd rs1 rs2) = rd := by
  apply Fin.ext
  have h1 := opc.isLt
  have h2 := msel.isLt
  have h3 : b.toNat < 2 := by cases b <;> decide
  rw [fieldRd_val, commandWord_toNat]; omega

theorem fieldRs1_commandWord (opc : BitVec 8) (msel : BitVec 2) (b : Bool) (rd rs1 rs2 : Reg) :
    fieldRs1 (commandWord opc msel b rd rs1 rs2) = rs1 := by
  apply Fin.ext
  have h1 := opc.isLt
  have h2 := msel.isLt
  have h3 : b.toNat < 2 := by cases b <;> decide
  rw [fieldRs1_val, commandWord_toNat]; omega

theorem fieldRs2_commandWord (opc : BitVec 8) (msel : BitVec 2) (b : Bool) (rd rs1 rs2 : Reg) :
    fieldRs2 (commandWord opc msel b rd rs1 rs2) = rs2 := by
  apply Fin.ext
  have h1 := opc.isLt
  have h2 := msel.isLt
  have h3 : b.toNat < 2 := by cases b <;> decide
  rw [fieldRs2_val, commandWord_toNat]; omega

theorem fieldReservedTop_commandWord (opc : BitVec 8) (msel : BitVec 2) (b : Bool)
    (rd rs1 rs2 : Reg) : fieldReservedTop (commandWord opc msel b rd rs1 rs2) = 0 := by
  apply BitVec.eq_of_toNat_eq
  have h1 := opc.isLt
  have h2 := msel.isLt
  have h3 : b.toNat < 2 := by cases b <;> decide
  rw [fieldReservedTop_toNat, commandWord_toNat]
  change _ = 0
  omega

/-! ## The opcode map (R99, R100) -/

/-- No two commands share an OPC. -/
theorem opcodes_distinct : (allOpcodes.map Opcode.code).Nodup := by decide

theorem ofCode_code (op : Opcode) : Opcode.ofCode op.code = some op := by cases op <;> decide

theorem code_of_ofCode {c : BitVec 8} {op : Opcode} (h : Opcode.ofCode c = some op) :
    op.code = c := by
  have := List.find?_some h
  simpa using this

theorem ofBits_code (m : Msel) : Msel.ofBits m.code = m := by cases m <;> decide

theorem code_ofBits (b : BitVec 2) : (Msel.ofBits b).code = b := by revert b; decide

/-! ## The decoder and the issue check -/

/-- The decoder rejects what the issue check rejects, by the same name (60_exceptions.md R291). -/
theorem decode_eq_error_iff (w : Word) (e : ErrCode) : decode w = .error e ↔ check w = some e := by
  unfold decode check
  cases Opcode.ofCode (fieldOpc w) with
  | none => simp
  | some op => dsimp only; cases h : checkFields op w <;> simp

/-- What decodes: a word that passes its check, built from its fields. -/
theorem decode_eq_ok_iff (w : Word) (i : Instr) :
    decode w = .ok i ↔
      ∃ op, Opcode.ofCode (fieldOpc w) = some op ∧ checkFields op w = none ∧ build op w = i := by
  unfold decode
  cases Opcode.ofCode (fieldOpc w) with
  | none => simp
  | some op => cases h : checkFields op w <;> simp [h]

theorem check_eq_none_iff (w : Word) : check w = none ↔ ∃ i, decode w = .ok i := by
  cases h : decode w with
  | error e => simp [(decode_eq_error_iff w e).mp h]
  | ok i =>
    cases hc : check w with
    | none => simp
    | some e => rw [(decode_eq_error_iff w e).mpr hc] at h; cases h

/-- The range condition as inequalities (R285). -/
theorem rangeOk_iff (op : Opcode) (w : Word) :
    op.rangeOk w = true ↔ (fieldRd w).val ≤ op.rangeMax.1 ∧ (fieldRs1 w).val ≤ op.rangeMax.2.1 ∧
      (fieldB w = false → (fieldRs2 w).val ≤ op.rangeMax.2.2) := by
  simp only [Opcode.rangeOk, Bool.and_eq_true, Bool.or_eq_true, decide_eq_true_eq]
  cases fieldB w <;> simp [and_assoc]

/-- The conditions a word that passes its check meets (R291). -/
theorem checkFields_eq_none_iff (op : Opcode) (w : Word) :
    checkFields op w = none ↔
      fieldReserved11 w = false ∧ fieldReservedTop w = 0 ∧ (fieldB w = true → op.acceptsB = true) ∧
        op.acceptsMsel (Msel.ofBits (fieldMsel w)) = true ∧ op.rangeOk w = true := by
  unfold checkFields
  by_cases h : fieldReservedTop w = 0
  · rw [h]
    cases fieldReserved11 w <;> cases fieldB w <;> cases op.acceptsB <;>
      cases op.acceptsMsel (Msel.ofBits (fieldMsel w)) <;> cases op.rangeOk w <;> simp
  · have h' : (fieldReservedTop w != 0) = true := by simpa using h
    rw [if_pos (by rw [h', Bool.or_true])]
    exact iff_of_false (by simp) (fun hc => h hc.2.1)

/-- Only well-formed commands are built from words that pass their check (R284, R285). -/
theorem build_wellFormed {op : Opcode} {w : Word} (h : checkFields op w = none) :
    (build op w).wellFormed = true := by
  obtain ⟨-, -, hB, hm, hr⟩ := (checkFields_eq_none_iff op w).mp h
  obtain ⟨h1, h2, h3⟩ := (rangeOk_iff op w).mp hr
  cases op <;> cases hmsel : Msel.ofBits (fieldMsel w) <;> cases hb : fieldB w <;>
    simp_all [build, Instr.wellFormed, Opcode.rangeMax, Opcode.acceptsMsel, Opcode.acceptsB,
      Reg.beginsPair, Reg.beginsJac, Reg.beginsExt, Msel.isField, Msel.isOrder, pointSrcOf,
      PointSrc.affOk, PointSrc.extOk]

theorem decode_wellFormed {w : Word} {i : Instr} (h : decode w = .ok i) : i.wellFormed = true := by
  obtain ⟨op, -, hc, rfl⟩ := (decode_eq_ok_iff w i).mp h
  exact build_wellFormed hc

end Sys2Proof
end

