-- ==== Sys2Proof/Laws/Field.lean ====
section
/-! SUPPORT. The field operations as arithmetic in `ZMod m`, their bounds, and the Fermat inverse as a
plain power. -/

namespace Sys2Proof.Machine

theorem modInt_lt (a : Int) {m : Nat} (hm : 0 < m) : modInt a m < m := by
  have h1 := Int.emod_lt_of_pos a (b := (m : Int)) (by exact_mod_cast hm)
  have h2 := Int.emod_nonneg a (b := (m : Int)) (by omega)
  unfold modInt; omega

theorem natCast_modInt (a : Int) {m : Nat} (hm : 0 < m) : ((modInt a m : Nat) : Int) = a % m := by
  have h2 := Int.emod_nonneg a (b := (m : Int)) (by omega)
  unfold modInt; omega

@[simp] theorem zmod_fAdd (m a b : Nat) : ((fAdd m a b : Nat) : ZMod m) = a + b := by
  simp [fAdd]

@[simp] theorem zmod_fMul (m a b : Nat) : ((fMul m a b : Nat) : ZMod m) = a * b := by
  simp [fMul]

@[simp] theorem zmod_fSq (m a : Nat) : ((fSq m a : Nat) : ZMod m) = a ^ 2 := by
  simp [fSq, pow_two]

theorem zmod_fSub {m : Nat} (hm : 0 < m) (a b : Nat) : ((fSub m a b : Nat) : ZMod m) = a - b := by
  have h := natCast_modInt ((a : Int) - b) hm
  have : (((modInt ((a : Int) - b) m : Nat) : Int) : ZMod m) = (((a : Int) - b : Int) : ZMod m) := by
    rw [h, ZMod.intCast_mod]
  simpa [fSub] using this

theorem fAdd_lt {m : Nat} (hm : 0 < m) (a b : Nat) : fAdd m a b < m := Nat.mod_lt _ hm

theorem fMul_lt {m : Nat} (hm : 0 < m) (a b : Nat) : fMul m a b < m := Nat.mod_lt _ hm

theorem fSq_lt {m : Nat} (hm : 0 < m) (a : Nat) : fSq m a < m := Nat.mod_lt _ hm

theorem fSub_lt {m : Nat} (hm : 0 < m) (a b : Nat) : fSub m a b < m := modInt_lt _ hm

/-- A number below `m` is the value of its residue. -/
theorem eq_val_of_cast {m a : Nat} (h : a < m) {z : ZMod m} (hz : (a : ZMod m) = z) : a = z.val := by
  rw [← hz, ZMod.val_natCast, Nat.mod_eq_of_lt h]

/-- `powMod` is the plain power modulo `m` (00_scope.md R8). -/
theorem powMod_eq (m a : Nat) (n : Nat) : ∀ e, e < 2 ^ n → powMod m a e n = a ^ e % m := by
  induction n with
  | zero =>
    intro e he
    have : e = 0 := by simpa using he
    simp [powMod, this]
  | succ n ih =>
    intro e he
    have hdiv : e / 2 < 2 ^ n := by
      rw [pow_succ] at he; omega
    have hr := ih (e / 2) hdiv
    have hsq : a ^ (e / 2) * a ^ (e / 2) = a ^ (2 * (e / 2)) := by rw [← pow_add, two_mul]
    by_cases ho : e % 2 = 1
    · have he2 : e = 2 * (e / 2) + 1 := by omega
      simp only [powMod, hr, if_pos ho]
      rw [← Nat.mul_mod, hsq, Nat.mod_mul_mod, ← pow_succ, ← he2]
    · have he2 : e = 2 * (e / 2) := by omega
      simp only [powMod, hr, if_neg ho]
      rw [← Nat.mul_mod, hsq, ← he2]

theorem fInv_eq {m : Nat} (hm : m ≤ 2 ^ 521) (h0 : 0 < m) (a : Nat) :
    fInv m a = a ^ (m - 2) % m := powMod_eq m a 521 (m - 2) (by omega)

theorem fInv_lt {m : Nat} (hm : m ≤ 2 ^ 521) (h0 : 0 < m) (a : Nat) : fInv m a < m := by
  rw [fInv_eq hm h0]; exact Nat.mod_lt _ h0

theorem zmod_fInv {m : Nat} (hm : m ≤ 2 ^ 521) (h0 : 0 < m) (a : Nat) :
    ((fInv m a : Nat) : ZMod m) = (a : ZMod m) ^ (m - 2) := by
  rw [fInv_eq hm h0]; simp

theorem cswap_eq {α : Type} (s : Bool) (a b : α) : cswap s a b = if s then (b, a) else (a, b) := by
  cases s <;> rfl

theorem cmove_eq {α : Type} (c : Bool) (a b : α) : cmove c a b = if c then a else b := by
  cases c <;> rfl

theorem romP25519_pos : 0 < romP25519 := by decide +kernel

theorem romP521_pos : 0 < romP521 := by decide +kernel

theorem romP25519_le : romP25519 ≤ 2 ^ 521 := by decide +kernel

theorem romP521_le : romP521 ≤ 2 ^ 521 := by decide +kernel

/-- `P521 = 2^521 - 1` (10_state.md R37). -/
theorem romP521_eq : romP521 = 2 ^ 521 - 1 := by decide +kernel

end Sys2Proof.Machine
end

