-- ==== Sys2Proof/Laws/State.lean ====
section
/-! SUPPORT. The field lemmas of State: for each shared operation, what every field is after it, so that
no proof unfolds a record update. -/

namespace Sys2Proof.Machine

open Sys2Proof

/-! ## raise (R288) -/

@[simp] theorem State.raise_params (s : State) (e : ErrCode) :
    (s.raise e).params = s.params := rfl

@[simp] theorem State.raise_x (s : State) (e : ErrCode) :
    (s.raise e).x = s.x := rfl

@[simp] theorem State.raise_cmd (s : State) (e : ErrCode) :
    (s.raise e).cmd = s.cmd := rfl

@[simp] theorem State.raise_status (s : State) (e : ErrCode) :
    (s.raise e).status = { s.status with err := true, errcode := if s.status.err then s.status.errcode else errorCode e } := rfl

@[simp] theorem State.raise_irqEn (s : State) (e : ErrCode) :
    (s.raise e).irqEn = s.irqEn := rfl

@[simp] theorem State.raise_inflight (s : State) (e : ErrCode) :
    (s.raise e).inflight = s.inflight := rfl

@[simp] theorem State.raise_hidden (s : State) (e : ErrCode) :
    (s.raise e).hidden = s.hidden := rfl

@[simp] theorem State.raise_agenda (s : State) (e : ErrCode) :
    (s.raise e).agenda = s.agenda := rfl

@[simp] theorem State.raise_returned (s : State) (e : ErrCode) :
    (s.raise e).returned = s.returned := rfl

@[simp] theorem State.raise_freeCount (s : State) (e : ErrCode) :
    (s.raise e).freeCount = s.freeCount := rfl

/-! ## raiseIssue (R289) -/

@[simp] theorem State.raiseIssue_params (s : State) (e : ErrCode) :
    (s.raiseIssue e).params = s.params := rfl

@[simp] theorem State.raiseIssue_x (s : State) (e : ErrCode) :
    (s.raiseIssue e).x = s.x := rfl

@[simp] theorem State.raiseIssue_cmd (s : State) (e : ErrCode) :
    (s.raiseIssue e).cmd = s.cmd := rfl

@[simp] theorem State.raiseIssue_status (s : State) (e : ErrCode) :
    (s.raiseIssue e).status = { s.status with done := true, err := true, errcode := if s.status.err then s.status.errcode else errorCode e } := rfl

@[simp] theorem State.raiseIssue_irqEn (s : State) (e : ErrCode) :
    (s.raiseIssue e).irqEn = s.irqEn := rfl

@[simp] theorem State.raiseIssue_inflight (s : State) (e : ErrCode) :
    (s.raiseIssue e).inflight = s.inflight := rfl

@[simp] theorem State.raiseIssue_hidden (s : State) (e : ErrCode) :
    (s.raiseIssue e).hidden = s.hidden := rfl

@[simp] theorem State.raiseIssue_agenda (s : State) (e : ErrCode) :
    (s.raiseIssue e).agenda = s.agenda := rfl

@[simp] theorem State.raiseIssue_returned (s : State) (e : ErrCode) :
    (s.raiseIssue e).returned = s.returned := rfl

@[simp] theorem State.raiseIssue_freeCount (s : State) (e : ErrCode) :
    (s.raiseIssue e).freeCount = s.freeCount := rfl

/-! ## work (R34) -/

@[simp] theorem State.work_params (s : State) :
    (s.work).params = s.params := rfl

@[simp] theorem State.work_x (s : State) :
    (s.work).x = s.x := rfl

@[simp] theorem State.work_cmd (s : State) :
    (s.work).cmd = s.cmd := rfl

@[simp] theorem State.work_status (s : State) :
    (s.work).status = s.status := rfl

@[simp] theorem State.work_irqEn (s : State) :
    (s.work).irqEn = s.irqEn := rfl

@[simp] theorem State.work_inflight (s : State) :
    (s.work).inflight = s.inflight := rfl

@[simp] theorem State.work_hidden (s : State) :
    (s.work).hidden = Config.workingStorage s.freeCount s.cmd s.x := rfl

@[simp] theorem State.work_agenda (s : State) :
    (s.work).agenda = s.agenda := rfl

@[simp] theorem State.work_returned (s : State) :
    (s.work).returned = s.returned := rfl

@[simp] theorem State.work_freeCount (s : State) :
    (s.work).freeCount = s.freeCount + 1 := rfl

/-! ## accept (R41) -/

@[simp] theorem State.accept_params (s : State) (v : Word) :
    (s.accept v).params = s.params := rfl

@[simp] theorem State.accept_x (s : State) (v : Word) :
    (s.accept v).x = s.x := rfl

@[simp] theorem State.accept_cmd (s : State) (v : Word) :
    (s.accept v).cmd = s.cmd := rfl

@[simp] theorem State.accept_status (s : State) (v : Word) :
    (s.accept v).status = { s.status with done := false, busy := true } := rfl

@[simp] theorem State.accept_irqEn (s : State) (v : Word) :
    (s.accept v).irqEn = s.irqEn := rfl

@[simp] theorem State.accept_inflight (s : State) (v : Word) :
    (s.accept v).inflight = some ⟨v, s.latency v⟩ := rfl

@[simp] theorem State.accept_hidden (s : State) (v : Word) :
    (s.accept v).hidden = Config.workingStorage s.freeCount s.cmd s.x := rfl

@[simp] theorem State.accept_agenda (s : State) (v : Word) :
    (s.accept v).agenda = s.agenda := rfl

@[simp] theorem State.accept_returned (s : State) (v : Word) :
    (s.accept v).returned = s.returned := rfl

@[simp] theorem State.accept_freeCount (s : State) (v : Word) :
    (s.accept v).freeCount = s.freeCount + 1 := rfl

/-! ## complete (R42) -/

@[simp] theorem State.complete_params (s : State) (r : Result) :
    (s.complete r).params = s.params := rfl

@[simp] theorem State.complete_x (s : State) (r : Result) :
    (s.complete r).x = applyWrites s.x r.writes := rfl

@[simp] theorem State.complete_cmd (s : State) (r : Result) :
    (s.complete r).cmd = s.cmd := rfl

@[simp] theorem State.complete_status (s : State) (r : Result) :
    (s.complete r).status = { s.status.withFlags r.flags with busy := false, done := true } := rfl

@[simp] theorem State.complete_irqEn (s : State) (r : Result) :
    (s.complete r).irqEn = s.irqEn := rfl

@[simp] theorem State.complete_inflight (s : State) (r : Result) :
    (s.complete r).inflight = none := rfl

@[simp] theorem State.complete_hidden (s : State) (r : Result) :
    (s.complete r).hidden = Hidden.zeroed := rfl

@[simp] theorem State.complete_agenda (s : State) (r : Result) :
    (s.complete r).agenda = s.agenda := rfl

@[simp] theorem State.complete_returned (s : State) (r : Result) :
    (s.complete r).returned = s.returned := rfl

@[simp] theorem State.complete_freeCount (s : State) (r : Result) :
    (s.complete r).freeCount = s.freeCount := rfl

/-! ## doReset (R321) -/

@[simp] theorem State.doReset_params (s : State) :
    (s.doReset).params = s.params := rfl

@[simp] theorem State.doReset_x (s : State) :
    (s.doReset).x = Vector.replicate 16 0 := rfl

@[simp] theorem State.doReset_cmd (s : State) :
    (s.doReset).cmd = 0 := rfl

@[simp] theorem State.doReset_status (s : State) :
    (s.doReset).status = Status.cleared := rfl

@[simp] theorem State.doReset_irqEn (s : State) :
    (s.doReset).irqEn = false := rfl

@[simp] theorem State.doReset_inflight (s : State) :
    (s.doReset).inflight = none := rfl

@[simp] theorem State.doReset_hidden (s : State) :
    (s.doReset).hidden = Hidden.zeroed := rfl

@[simp] theorem State.doReset_agenda (s : State) :
    (s.doReset).agenda = s.agenda := rfl

@[simp] theorem State.doReset_returned (s : State) :
    (s.doReset).returned = s.returned := rfl

@[simp] theorem State.doReset_freeCount (s : State) :
    (s.doReset).freeCount = s.freeCount := rfl

/-! ## writeStatus (R25) -/

@[simp] theorem State.writeStatus_params (s : State) (v : Word) :
    (s.writeStatus v).params = s.params := rfl

@[simp] theorem State.writeStatus_x (s : State) (v : Word) :
    (s.writeStatus v).x = s.x := rfl

@[simp] theorem State.writeStatus_cmd (s : State) (v : Word) :
    (s.writeStatus v).cmd = s.cmd := rfl

@[simp] theorem State.writeStatus_status (s : State) (v : Word) :
    (s.writeStatus v).status = { s.status with done := s.status.done && !v.getLsbD 1, err := s.status.err && !v.getLsbD 2, errcode := if v.getLsbD 2 then 0 else s.status.errcode } := rfl

@[simp] theorem State.writeStatus_irqEn (s : State) (v : Word) :
    (s.writeStatus v).irqEn = s.irqEn := rfl

@[simp] theorem State.writeStatus_inflight (s : State) (v : Word) :
    (s.writeStatus v).inflight = s.inflight := rfl

@[simp] theorem State.writeStatus_hidden (s : State) (v : Word) :
    (s.writeStatus v).hidden = s.hidden := rfl

@[simp] theorem State.writeStatus_agenda (s : State) (v : Word) :
    (s.writeStatus v).agenda = s.agenda := rfl

@[simp] theorem State.writeStatus_returned (s : State) (v : Word) :
    (s.writeStatus v).returned = s.returned := rfl

@[simp] theorem State.writeStatus_freeCount (s : State) (v : Word) :
    (s.writeStatus v).freeCount = s.freeCount := rfl

/-! ## returnWord (R71) -/

@[simp] theorem State.returnWord_params (s : State) (v : Word) :
    (s.returnWord v).params = s.params := rfl

@[simp] theorem State.returnWord_x (s : State) (v : Word) :
    (s.returnWord v).x = s.x := rfl

@[simp] theorem State.returnWord_cmd (s : State) (v : Word) :
    (s.returnWord v).cmd = s.cmd := rfl

@[simp] theorem State.returnWord_status (s : State) (v : Word) :
    (s.returnWord v).status = s.status := rfl

@[simp] theorem State.returnWord_irqEn (s : State) (v : Word) :
    (s.returnWord v).irqEn = s.irqEn := rfl

@[simp] theorem State.returnWord_inflight (s : State) (v : Word) :
    (s.returnWord v).inflight = s.inflight := rfl

@[simp] theorem State.returnWord_hidden (s : State) (v : Word) :
    (s.returnWord v).hidden = s.hidden := rfl

@[simp] theorem State.returnWord_agenda (s : State) (v : Word) :
    (s.returnWord v).agenda = s.agenda := rfl

@[simp] theorem State.returnWord_returned (s : State) (v : Word) :
    (s.returnWord v).returned = v :: s.returned := rfl

@[simp] theorem State.returnWord_freeCount (s : State) (v : Word) :
    (s.returnWord v).freeCount = s.freeCount := rfl

/-! ## hostRead (R71) -/

@[simp] theorem State.hostRead_params (s : State) (a : Addr) :
    (s.hostRead a).params = s.params := rfl

@[simp] theorem State.hostRead_x (s : State) (a : Addr) :
    (s.hostRead a).x = s.x := rfl

@[simp] theorem State.hostRead_cmd (s : State) (a : Addr) :
    (s.hostRead a).cmd = s.cmd := rfl

@[simp] theorem State.hostRead_status (s : State) (a : Addr) :
    (s.hostRead a).status = s.status := rfl

@[simp] theorem State.hostRead_irqEn (s : State) (a : Addr) :
    (s.hostRead a).irqEn = s.irqEn := rfl

@[simp] theorem State.hostRead_inflight (s : State) (a : Addr) :
    (s.hostRead a).inflight = s.inflight := rfl

@[simp] theorem State.hostRead_hidden (s : State) (a : Addr) :
    (s.hostRead a).hidden = s.hidden := rfl

@[simp] theorem State.hostRead_agenda (s : State) (a : Addr) :
    (s.hostRead a).agenda = s.agenda := rfl

@[simp] theorem State.hostRead_returned (s : State) (a : Addr) :
    (s.hostRead a).returned = s.busRead a :: s.returned := rfl

@[simp] theorem State.hostRead_freeCount (s : State) (a : Addr) :
    (s.hostRead a).freeCount = s.freeCount := rfl

/-! ## withFetchWord -/

@[simp] theorem State.withFetchWord_params (s : State) (nbits w : Nat) :
    (s.withFetchWord nbits w).params = s.params := rfl

@[simp] theorem State.withFetchWord_x (s : State) (nbits w : Nat) :
    (s.withFetchWord nbits w).x = s.x := rfl

@[simp] theorem State.withFetchWord_cmd (s : State) (nbits w : Nat) :
    (s.withFetchWord nbits w).cmd = tableWord nbits w := rfl

@[simp] theorem State.withFetchWord_status (s : State) (nbits w : Nat) :
    (s.withFetchWord nbits w).status = { s.status with busy := true } := rfl

@[simp] theorem State.withFetchWord_irqEn (s : State) (nbits w : Nat) :
    (s.withFetchWord nbits w).irqEn = s.irqEn := rfl

@[simp] theorem State.withFetchWord_inflight (s : State) (nbits w : Nat) :
    (s.withFetchWord nbits w).inflight = some ⟨tableWord nbits w, 0⟩ := rfl

@[simp] theorem State.withFetchWord_hidden (s : State) (nbits w : Nat) :
    (s.withFetchWord nbits w).hidden = s.hidden := rfl

@[simp] theorem State.withFetchWord_agenda (s : State) (nbits w : Nat) :
    (s.withFetchWord nbits w).agenda = s.agenda := rfl

@[simp] theorem State.withFetchWord_returned (s : State) (nbits w : Nat) :
    (s.withFetchWord nbits w).returned = s.returned := rfl

@[simp] theorem State.withFetchWord_freeCount (s : State) (nbits w : Nat) :
    (s.withFetchWord nbits w).freeCount = s.freeCount := rfl

/-! ## tick (R330): which fields a cycle leaves -/

@[simp] theorem State.tick_params (s : State) : s.tick.params = s.params := by
  unfold State.tick; split <;> rfl

@[simp] theorem State.tick_x (s : State) : s.tick.x = s.x := by
  unfold State.tick; split <;> rfl

@[simp] theorem State.tick_cmd (s : State) : s.tick.cmd = s.cmd := by
  unfold State.tick; split <;> rfl

@[simp] theorem State.tick_status (s : State) : s.tick.status = s.status := by
  unfold State.tick; split <;> rfl

@[simp] theorem State.tick_irqEn (s : State) : s.tick.irqEn = s.irqEn := by
  unfold State.tick; split <;> rfl

@[simp] theorem State.tick_agenda (s : State) : s.tick.agenda = s.agenda := by
  unfold State.tick; split <;> rfl

@[simp] theorem State.tick_returned (s : State) : s.tick.returned = s.returned := by
  unfold State.tick; split <;> rfl

/-! ## The status word's flags -/

@[simp] theorem Status.withFlags_err (st : Status) (f : Option Flags) :
    (st.withFlags f).err = st.err := by cases f <;> rfl

@[simp] theorem Status.withFlags_errcode (st : Status) (f : Option Flags) :
    (st.withFlags f).errcode = st.errcode := by cases f <;> rfl

/-! ## Reading one register -/

@[simp] theorem State.reg_doReset (s : State) (r : Reg) : s.doReset.reg r = 0 := by
  simp [State.reg]

@[simp] theorem State.reg_reset (r : Reg) : State.reset.reg r = 0 := by
  simp [State.reg, State.reset]

end Sys2Proof.Machine
end

