-- ==== Sys2Proof/Laws/Operands.lean ====
section
/-! SUPPORT. The widths and moduli, and what destination writes leave in each register. -/

namespace Sys2Proof.Machine

open Sys2Proof

theorem w521_bounds (l : LimbBits) : 528 ≤ l.w521 ∧ l.w521 ≤ 576 := by
  cases l <;> decide

theorem width_le (s : State) (m : Msel) : s.width m ≤ 576 := by
  have h := w521_bounds s.params.limbBits
  cases m <;> simp only [State.width] <;> omega

theorem modulus_pos (m : Msel) : 0 < modulus m := by cases m <;> decide +kernel

theorem modulus_le (m : Msel) : modulus m ≤ 2 ^ 521 := by cases m <;> decide +kernel

/-- Twice a modulus still fits its width (40_limb_adder_subtractor.md R133). -/
theorem two_modulus_le (s : State) (m : Msel) : 2 * modulus m ≤ 2 ^ s.width m := by
  have h528 := (w521_bounds s.params.limbBits).1
  have hpow : 2 ^ 528 ≤ 2 ^ s.params.limbBits.w521 := Nat.pow_le_pow_right Nat.two_pos h528
  have h1 : 2 * romP25519 ≤ 2 ^ 256 := by decide +kernel
  have h2 : 2 * romL25519 ≤ 2 ^ 256 := by decide +kernel
  have h3 : 2 * romP521 ≤ 2 ^ 528 := by decide +kernel
  have h4 : 2 * romQ521 ≤ 2 ^ 528 := by decide +kernel
  cases m
  · exact h1
  · exact h2
  · exact le_trans h3 hpow
  · exact le_trans h4 hpow

theorem src_lt (s : State) (m : Msel) (i : Reg) : s.src m i < 2 ^ s.width m :=
  Nat.mod_lt _ (Nat.two_pow_pos _)

/-- A value that fits a width is stored whole (30_encoding.md R95). -/
theorem toNat_ofNat_of_lt_width {v : Nat} (s : State) (m : Msel) (h : v < 2 ^ s.width m) :
    (BitVec.ofNat 576 v).toNat = v := by
  have hp : 2 ^ s.width m ≤ 2 ^ 576 := Nat.pow_le_pow_right Nat.two_pos (width_le s m)
  rw [BitVec.toNat_ofNat, Nat.mod_eq_of_lt (lt_of_lt_of_le h hp)]

/-- A value below a modulus is stored whole. -/
theorem toNat_ofNat_of_lt_521 {v : Nat} (h : v < 2 ^ 521) : (BitVec.ofNat 576 v).toNat = v := by
  rw [BitVec.toNat_ofNat, Nat.mod_eq_of_lt (lt_of_lt_of_le h (by decide +kernel))]

theorem applyWrites_nil (x : RegFile) : applyWrites x [] = x := rfl

theorem applyWrites_cons (x : RegFile) (i : Reg) (v : Nat) (rest : Writes) :
    applyWrites x ((i, v) :: rest) =
      applyWrites (x.set i.val (BitVec.ofNat 576 v) i.isLt) rest := rfl

/-- A register that is no destination keeps its value (10_state.md R42). -/
theorem applyWrites_getElem_of_notMem (ws : Writes) :
    ∀ (x : RegFile) (r : Reg), r ∉ ws.map Prod.fst → (applyWrites x ws)[r.val] = x[r.val] := by
  induction ws with
  | nil => intro x r _; rfl
  | cons w rest ih =>
    intro x r h
    obtain ⟨i, v⟩ := w
    simp only [List.map_cons, List.mem_cons, not_or] at h
    rw [applyWrites_cons, ih _ _ h.2, Vector.getElem_set_ne]
    exact fun hc => h.1 (Fin.ext hc.symm)

/-- The first write of a register that no later write repeats is what the register holds. -/
theorem applyWrites_getElem_head (x : RegFile) (i : Reg) (v : Nat) (rest : Writes)
    (h : i ∉ rest.map Prod.fst) :
    (applyWrites x ((i, v) :: rest))[i.val] = BitVec.ofNat 576 v := by
  rw [applyWrites_cons, applyWrites_getElem_of_notMem _ _ _ h, Vector.getElem_set_self]

theorem reg_complete_of_notMem (s : State) (res : Result) (r : Reg)
    (h : r ∉ res.writes.map Prod.fst) : (s.complete res).reg r = s.reg r := by
  simpa [State.reg] using applyWrites_getElem_of_notMem res.writes s.x r h

theorem reg_complete_dst (s : State) (i : Reg) (v : Nat) (f : Option Flags) :
    (s.complete ⟨dst i v, f⟩).reg i = BitVec.ofNat 576 v := by
  simpa [State.reg, dst] using applyWrites_getElem_head s.x i v [] (by simp)

theorem reg_complete_dstPair (s : State) (i : Reg) (lo hi : Nat) (f : Option Flags) :
    (s.complete ⟨dstPair i lo hi, f⟩).reg i = BitVec.ofNat 576 lo ∧
      (s.complete ⟨dstPair i lo hi, f⟩).reg (i + 1) = BitVec.ofNat 576 hi := by
  simp only [State.reg, State.complete_x, dstPair, applyWrites]
  constructor
  · rw [Vector.getElem_set_ne _ _ (by fin_cases i <;> decide), Vector.getElem_set_self]
  · rw [Vector.getElem_set_self]

theorem reg_complete_dstAff (s : State) (i : Reg) (p : Aff) (f : Option Flags) :
    (s.complete ⟨dstAff i p, f⟩).reg i = BitVec.ofNat 576 p.x ∧
      (s.complete ⟨dstAff i p, f⟩).reg (i + 1) = BitVec.ofNat 576 p.y :=
  reg_complete_dstPair s i p.x p.y f

theorem reg_complete_dstJac (s : State) (i : Reg) (p : Jac) (f : Option Flags) :
    (s.complete ⟨dstJac i p, f⟩).reg i = BitVec.ofNat 576 p.x ∧
      (s.complete ⟨dstJac i p, f⟩).reg (i + 1) = BitVec.ofNat 576 p.y ∧
      (s.complete ⟨dstJac i p, f⟩).reg (i + 2) = BitVec.ofNat 576 p.z := by
  simp only [State.reg, State.complete_x, dstJac, applyWrites]
  refine ⟨?_, ?_, ?_⟩
  · rw [Vector.getElem_set_ne _ _ (by fin_cases i <;> decide),
      Vector.getElem_set_ne _ _ (by fin_cases i <;> decide), Vector.getElem_set_self]
  · rw [Vector.getElem_set_ne _ _ (by fin_cases i <;> decide), Vector.getElem_set_self]
  · rw [Vector.getElem_set_self]

theorem reg_complete_dstExt (s : State) (i : Reg) (p : Ext) (f : Option Flags) :
    (s.complete ⟨dstExt i p, f⟩).reg i = BitVec.ofNat 576 p.x ∧
      (s.complete ⟨dstExt i p, f⟩).reg (i + 1) = BitVec.ofNat 576 p.y ∧
      (s.complete ⟨dstExt i p, f⟩).reg (i + 2) = BitVec.ofNat 576 p.z ∧
      (s.complete ⟨dstExt i p, f⟩).reg (i + 3) = BitVec.ofNat 576 p.t := by
  simp only [State.reg, State.complete_x, dstExt, applyWrites]
  refine ⟨?_, ?_, ?_, ?_⟩
  · rw [Vector.getElem_set_ne _ _ (by fin_cases i <;> decide),
      Vector.getElem_set_ne _ _ (by fin_cases i <;> decide),
      Vector.getElem_set_ne _ _ (by fin_cases i <;> decide), Vector.getElem_set_self]
  · rw [Vector.getElem_set_ne _ _ (by fin_cases i <;> decide),
      Vector.getElem_set_ne _ _ (by fin_cases i <;> decide), Vector.getElem_set_self]
  · rw [Vector.getElem_set_ne _ _ (by fin_cases i <;> decide), Vector.getElem_set_self]
  · rw [Vector.getElem_set_self]

end Sys2Proof.Machine
end

