-- ==== Sys2Proof/Laws/Ops.lean ====
section
/-! SUPPORT. What the shared operations can do: a completion, a meaning, issue, a cycle, and the latency. -/

namespace Sys2Proof.Machine

open Sys2Proof

/-! ## Completion -/

theorem finish_eq_next {s t : State} {wf : Bool} {r : Result} :
    s.finish wf r = .next t ↔ wf = true ∧ t = s.complete r := by
  cases wf <;> simp [State.finish, eq_comm]

theorem finish_of_true {s : State} {wf : Bool} (r : Result) (h : wf = true) :
    s.finish wf r = .next (s.complete r) := by simp [State.finish, h]

theorem completed_complete (s : State) (r : Result) : (s.complete r).Completed :=
  ⟨rfl, rfl, rfl, rfl⟩

theorem unchangedBut_complete (s : State) (r : Result) :
    s.UnchangedBut (s.complete r) (r.writes.map Prod.fst) :=
  ⟨fun q h => reg_complete_of_notMem s r q h, rfl, rfl, Status.withFlags_err _ _,
    Status.withFlags_errcode _ _, rfl, rfl, rfl, rfl⟩

@[simp] theorem flags_complete_some (s : State) (ws : Writes) (f : Flags) :
    (s.complete ⟨ws, some f⟩).flags = f := rfl

@[simp] theorem flags_complete_none (s : State) (ws : Writes) :
    (s.complete ⟨ws, none⟩).flags = s.flags := rfl

/-- Every meaning is the completion of a result, for a well-formed command (10_state.md R42). -/
theorem exec_eq_finish (i : Instr) (s : State) : ∃ r, exec i s = s.finish i.wellFormed r := by
  cases i <;> exact ⟨_, rfl⟩

/-- A completion reads the operand file and the parameters, and nothing else (10_state.md R42's
`Exec(CMD, x)`; R34): its result is one function of the two. -/
theorem exec_reads_operands (i : Instr) :
    ∃ R : Params → RegFile → Result,
      ∀ s : State, exec i s = s.finish i.wellFormed (R s.params s.x) := by
  have h : ∃ R : State → Result, ∀ s t : State,
      exec i s = s.finish i.wellFormed (R s) ∧ (t.params = s.params → t.x = s.x → R t = R s) := by
    cases i <;> refine ⟨_, fun s t => ⟨rfl, fun hp hx => ?_⟩⟩
    case nop => rfl
    all_goals
      simp only [State.srcU, State.srcPointAff, State.srcPointExt, State.srcAff, State.srcJac,
        State.srcExt, State.srcPair, State.src, State.width, State.reg, hp, hx]
  obtain ⟨R, hR⟩ := h
  exact ⟨fun p x => R { State.reset with params := p, x := x },
    fun s => (hR s s).1.trans (congrArg (s.finish i.wellFormed)
      ((hR s { State.reset with params := s.params, x := s.x }).2 rfl rfl).symm)⟩

/-- What a meaning can answer: the completion of a well-formed command, and nothing else next. -/
theorem exec_next {i : Instr} {s t : State} (h : exec i s = .next t) :
    i.wellFormed = true ∧ ∃ r, t = s.complete r := by
  obtain ⟨r, hr⟩ := exec_eq_finish i s
  rw [hr, finish_eq_next] at h
  exact ⟨h.1, r, h.2⟩

/-- A well-formed command always completes (60_exceptions.md R292). -/
theorem exec_of_wellFormed {i : Instr} (s : State) (h : i.wellFormed = true) :
    ∃ r, exec i s = .next (s.complete r) := by
  obtain ⟨r, hr⟩ := exec_eq_finish i s
  exact ⟨r, by rw [hr, finish_of_true r h]⟩

/-! ## Latency (R330) -/

theorem latency_congr {s t : State} (hp : t.params = s.params) (hx : t.x = s.x) (v : Word) :
    t.latency v = s.latency v := by
  simp only [State.latency, State.reg, hp, hx]

theorem latency_pos (s : State) (v : Word) : 0 < s.latency v := by
  unfold State.latency; split <;> omega

/-! ## Issue (R41) -/

theorem issue_busy {s : State} (v : Word) (h : s.status.busy = true) :
    s.issue v = s.raise .cmdWhileBusy := by simp [State.issue, h]

theorem issue_rejected {s : State} {v : Word} {e : ErrCode} (h : s.status.busy = false)
    (hc : check v = some e) : s.issue v = { s with cmd := v }.raiseIssue e := by
  simp [State.issue, h, hc]

theorem issue_accepted {s : State} {v : Word} (h : s.status.busy = false) (hc : check v = none) :
    s.issue v = { s with cmd := v }.accept v := by
  simp [State.issue, h, hc]

/-- A CMD write is dropped, rejected or accepted (R41). -/
theorem issue_cases (s : State) (v : Word) :
    (s.status.busy = true ∧ s.issue v = s.raise .cmdWhileBusy) ∨
    (s.status.busy = false ∧ ∃ e, check v = some e ∧
      s.issue v = { s with cmd := v }.raiseIssue e) ∨
    (s.status.busy = false ∧ check v = none ∧ s.issue v = { s with cmd := v }.accept v) := by
  cases hb : s.status.busy with
  | true => exact .inl ⟨rfl, issue_busy v hb⟩
  | false =>
    cases hc : check v with
    | some e => exact .inr (.inl ⟨rfl, e, rfl, issue_rejected hb hc⟩)
    | none => exact .inr (.inr ⟨rfl, rfl, issue_accepted hb hc⟩)

/-! ## A cycle -/

/-- An idle block is unchanged by a cycle; a busy one counts down and works on (R33, R302). -/
theorem tick_cases (s : State) :
    s.tick = s ∨ ∃ f, s.status.busy = true ∧ s.inflight = some f ∧
      s.tick = { s with inflight := some { f with cycles := f.cycles - 1 } }.work := by
  unfold State.tick
  split
  · rename_i f hb hf; exact .inr ⟨f, hb, hf, rfl⟩
  · exact .inl rfl

theorem tick_idle {s : State} (h : s.status.busy = false) : s.tick = s := by
  unfold State.tick; rw [h]

theorem tick_busy {s : State} {f : InFlight} (h : s.status.busy = true) (hf : s.inflight = some f) :
    s.tick = { s with inflight := some { f with cycles := f.cycles - 1 } }.work := by
  unfold State.tick; rw [h, hf]

/-- The engine's step is enabled exactly when a command is in flight with no cycle left (R42). -/
theorem engineReady_iff (s : State) :
    s.engineReady = true ↔ s.status.busy = true ∧ ∃ f, s.inflight = some f ∧ f.cycles = 0 := by
  unfold State.engineReady
  split
  · rename_i f hb hf; simp [hb, hf]
  · rename_i h; constructor
    · intro hf; cases hf
    · rintro ⟨hb, f, hf, _⟩; exact absurd hf (h f hb)

theorem engineReady_idle {s : State} (h : s.status.busy = false) : s.engineReady = false := by
  unfold State.engineReady; rw [h]

end Sys2Proof.Machine
end

