-- ==== Sys2Proof/Laws/Bus.lean ====
section
/-! SUPPORT. The address map as numbers, the words of a register, and what a bus write can do. -/

namespace Sys2Proof.Machine

open Sys2Proof

/-! ## The address map (20_memory.md R62, R63, R65) -/

theorem addr_index_lt (a : Addr) : a.toNat / 4 < 1024 := by have := a.isLt; omega

theorem bit11_eq (a : Addr) : a.getLsbD 11 = decide (512 ≤ a.toNat / 4) := by
  have h := a.isLt
  have : a.toNat / 2 ^ 11 % 2 = 1 ↔ 512 ≤ a.toNat / 4 := by omega
  simp [BitVec.getLsbD, Nat.testBit_eq_decide_div_mod_eq, ← this]

theorem extract_word_toNat (a : Addr) : (a.extractLsb' 2 5).toNat = a.toNat / 4 % 32 := by
  simp [BitVec.extractLsb'_toNat, Nat.shiftRight_eq_div_pow]

theorem extract_low_toNat (a : Addr) : (a.extractLsb' 2 9).toNat = a.toNat / 4 % 512 := by
  simp [BitVec.extractLsb'_toNat, Nat.shiftRight_eq_div_pow]

theorem extract_reg_val (a : Addr) :
    ((a.extractLsb' 7 4).toFin : Fin (2 ^ 4)).val = a.toNat / 4 / 32 % 16 := by
  have h : ((a.extractLsb' 7 4).toFin : Fin (2 ^ 4)).val = (a.extractLsb' 7 4).toNat := rfl
  rw [h, BitVec.extractLsb'_toNat, Nat.shiftRight_eq_div_pow, Nat.div_div_eq_div_mul]

/-- Below the window (R63). -/
theorem locOf_low {a : Addr} (h : a.toNat / 4 < 512) :
    locOf a = match a.toNat / 4 with
      | 0 => .id
      | 1 => .param
      | 2 => .ctrl
      | 3 => .status
      | 4 => .cmd
      | _ => .reserved := by
  have hb : a.getLsbD 11 = false := by rw [bit11_eq, decide_eq_false_iff_not]; omega
  have hm : a.toNat / 4 % 512 = a.toNat / 4 := Nat.mod_eq_of_lt h
  unfold locOf
  rw [hb, extract_low_toNat, hm]
  exact if_neg Bool.false_ne_true

/-- A data word of the window (R65). -/
theorem locOf_window {a : Addr} {k : Reg} {j : Fin 18}
    (h : a.toNat / 4 = 512 + 32 * k.val + j.val) : locOf a = .window k j := by
  have hk := k.isLt
  have hj := j.isLt
  have hb : a.getLsbD 11 = true := by rw [bit11_eq, decide_eq_true_eq]; omega
  have hw : (a.extractLsb' 2 5).toNat = j.val := by rw [extract_word_toNat]; omega
  have hr : ((a.extractLsb' 7 4).toFin : Fin (2 ^ 4)) = k := by
    apply Fin.ext; rw [extract_reg_val]; omega
  unfold locOf
  rw [hb, if_pos rfl]
  simp only [hw, hj, dite_true]
  exact congrArg₂ Loc.window hr rfl

/-- A reserved word of the window (R65). -/
theorem locOf_windowReserved {a : Addr} (h : 512 ≤ a.toNat / 4) (h18 : 18 ≤ a.toNat / 4 % 32) :
    ∃ k, locOf a = .windowReserved k := by
  have hb : a.getLsbD 11 = true := by rw [bit11_eq, decide_eq_true_eq]; omega
  refine ⟨(a.extractLsb' 7 4).toFin, ?_⟩
  unfold locOf
  rw [hb, if_pos rfl, dif_neg (by rw [extract_word_toNat]; omega)]

/-- The address of a data word, read back (R65). -/
theorem windowAddr_index (k : Reg) (j : Fin 18) :
    (windowAddr k j).toNat / 4 = 512 + 32 * k.val + j.val := by
  have hk := k.isLt
  have hj := j.isLt
  simp only [windowAddr, BitVec.toNat_ofNat]
  omega

@[simp] theorem locOf_windowAddr (k : Reg) (j : Fin 18) : locOf (windowAddr k j) = .window k j :=
  locOf_window (windowAddr_index k j)

/-- What every address is, by its word index (R63, R65). -/
theorem locOf_cases (a : Addr) :
    (a.toNat / 4 = 0 ∧ locOf a = .id) ∨ (a.toNat / 4 = 1 ∧ locOf a = .param) ∨
    (a.toNat / 4 = 2 ∧ locOf a = .ctrl) ∨ (a.toNat / 4 = 3 ∧ locOf a = .status) ∨
    (a.toNat / 4 = 4 ∧ locOf a = .cmd) ∨
    (5 ≤ a.toNat / 4 ∧ a.toNat / 4 < 512 ∧ locOf a = .reserved) ∨
    (∃ k j, a.toNat / 4 = 512 + 32 * k.val + j.val ∧ locOf a = .window k j) ∨
    (512 ≤ a.toNat / 4 ∧ 18 ≤ a.toNat / 4 % 32 ∧ ∃ k, locOf a = .windowReserved k) := by
  have hlt := addr_index_lt a
  rcases Nat.lt_or_ge (a.toNat / 4) 512 with h | h
  · have hl := locOf_low h
    generalize a.toNat / 4 = n at *
    match n, h, hl with
    | 0, _, hl => exact .inl ⟨rfl, hl⟩
    | 1, _, hl => exact .inr (.inl ⟨rfl, hl⟩)
    | 2, _, hl => exact .inr (.inr (.inl ⟨rfl, hl⟩))
    | 3, _, hl => exact .inr (.inr (.inr (.inl ⟨rfl, hl⟩)))
    | 4, _, hl => exact .inr (.inr (.inr (.inr (.inl ⟨rfl, hl⟩))))
    | m + 5, h, hl => exact .inr (.inr (.inr (.inr (.inr (.inl ⟨by omega, h, hl⟩)))))
  · rcases Nat.lt_or_ge (a.toNat / 4 % 32) 18 with h18 | h18
    · have hk : (a.toNat / 4 - 512) / 32 < 16 := by omega
      have he : a.toNat / 4 = 512 + 32 * ((a.toNat / 4 - 512) / 32) + a.toNat / 4 % 32 := by omega
      exact .inr (.inr (.inr (.inr (.inr (.inr (.inl
        ⟨⟨_, hk⟩, ⟨_, h18⟩, he, locOf_window (k := ⟨_, hk⟩) (j := ⟨_, h18⟩) he⟩))))))
    · exact .inr (.inr (.inr (.inr (.inr (.inr (.inr ⟨h, h18, locOf_windowReserved h h18⟩))))))

/-! ## The words of a register (R65, R67) -/

theorem wordOf_toNat (v : Operand) (j : Fin 18) :
    (wordOf v j).toNat = v.toNat / 2 ^ (32 * j.val) % 2 ^ 32 := by
  rw [wordOf, BitVec.extractLsb'_toNat, Nat.shiftRight_eq_div_pow]

theorem getLsbD_setWordOf (v : Operand) (j : Fin 18) (w : Word) (i : Nat) :
    (setWordOf v j w).getLsbD i =
      if 32 * j.val ≤ i ∧ i < 32 * j.val + 32 then w.getLsbD (i - 32 * j.val)
      else v.getLsbD i := by
  have hj := j.isLt
  have hmask : ∀ n, (0xFFFFFFFF : Operand).getLsbD n = decide (n < 32) := by
    intro n
    have h32 : (0xFFFFFFFF : Operand) = (BitVec.allOnes 32).setWidth 576 := by decide +kernel
    rw [h32, BitVec.getLsbD_setWidth, BitVec.getLsbD_allOnes]
    by_cases hn : n < 32
    · simp [hn, show n < 576 by omega]
    · simp [hn]
  rcases Nat.lt_or_ge i 576 with hi | hi
  · simp only [setWordOf, BitVec.getLsbD_or, BitVec.getLsbD_and, BitVec.getLsbD_not,
      BitVec.getLsbD_shiftLeft, BitVec.getLsbD_setWidth, hmask, hi, decide_true, Bool.true_and]
    by_cases h1 : i < 32 * j.val
    · simp [h1, show ¬ (32 * j.val ≤ i) by omega]
    · by_cases h2 : i < 32 * j.val + 32
      · simp [h1, h2, show 32 * j.val ≤ i by omega, show i - 32 * j.val < 32 by omega,
          show i - 32 * j.val < 576 by omega]
      · have hw : w.getLsbD (i - 32 * j.val) = false := BitVec.getLsbD_of_ge _ _ (by omega)
        simp [h1, h2, hw, show ¬ (i - 32 * j.val < 32) by omega]
  · rw [BitVec.getLsbD_of_ge _ _ hi, BitVec.getLsbD_of_ge v _ hi, if_neg (by omega)]

theorem getLsbD_wordOf (v : Operand) (j : Fin 18) (i : Nat) :
    (wordOf v j).getLsbD i = (decide (i < 32) && v.getLsbD (32 * j.val + i)) := by
  simp [wordOf, BitVec.getLsbD_extractLsb']

/-- The written word reads back (R67). -/
@[simp] theorem wordOf_setWordOf_self (v : Operand) (j : Fin 18) (w : Word) :
    wordOf (setWordOf v j w) j = w := by
  apply BitVec.eq_of_getLsbD_eq
  intro i hi
  rw [getLsbD_wordOf, getLsbD_setWordOf, if_pos ⟨by omega, by omega⟩]
  simp [hi]

/-- The other words are unchanged (R67). -/
theorem wordOf_setWordOf_ne (v : Operand) {j j' : Fin 18} (w : Word) (h : j' ≠ j) :
    wordOf (setWordOf v j w) j' = wordOf v j' := by
  have hne : j'.val ≠ j.val := fun hc => h (Fin.ext hc)
  apply BitVec.eq_of_getLsbD_eq
  intro i hi
  rw [getLsbD_wordOf, getLsbD_wordOf, getLsbD_setWordOf, if_neg (by omega)]

/-- A register is its 18 words (R65). -/
theorem eq_of_wordOf_eq {v v' : Operand} (h : ∀ j, wordOf v j = wordOf v' j) : v = v' := by
  apply BitVec.eq_of_getLsbD_eq
  intro i hi
  have hj : i / 32 < 18 := by omega
  have := congrArg (fun w => w.getLsbD (i % 32)) (h ⟨i / 32, hj⟩)
  simp only [getLsbD_wordOf, show i % 32 < 32 by omega, decide_true, Bool.true_and,
    show 32 * (i / 32) + i % 32 = i by omega] at this
  exact this

/-! ## The value of STREG (R102) -/

/-- Words of a number, the highest first, concatenate to its low bits. -/
theorem concatWords_extract (v : Operand) (n : Nat) :
    concatWords ((List.range n).map (fun j => v.extractLsb' (32 * j) 32)).reverse =
      v.toNat % 2 ^ (32 * n) := by
  induction n with
  | zero => simp [concatWords, Nat.mod_one]
  | succ n ih =>
    rw [List.range_succ, List.map_append, List.reverse_append]
    simp only [List.map_cons, List.map_nil, List.reverse_singleton, List.singleton_append, concatWords,
      List.length_reverse, List.length_map, List.length_range, ih, BitVec.extractLsb'_toNat,
      Nat.shiftRight_eq_div_pow]
    rw [show 32 * (n + 1) = 32 * n + 32 by omega, Nat.pow_add, Nat.mod_mul]
    ring

/-- The 18 words of `v`, word 17 first, concatenate to `v`. -/
theorem concatWords_words (v : Operand) :
    concatWords (windowWords.map (wordOf v)).reverse = v.toNat := by
  have h : windowWords.map (wordOf v) = (List.range 18).map (fun j => v.extractLsb' (32 * j) 32) := rfl
  rw [h, concatWords_extract, Nat.mod_eq_of_lt v.isLt]

/-- The reads of STREG from an IDLE state answer the words of `x[k]`, word 0 first. -/
theorem busRead_windowWords {s : State} (k : Reg) (h : s.status.busy = false) :
    windowWords.map (fun j => s.busRead (windowAddr k j)) = windowWords.map (wordOf (s.reg k)) := by
  simp [State.busRead, h]

/-- What the host has after the words of `v` came back, word 0 first. -/
theorem stregValue_words {s : State} {v : Operand} {old : List Word}
    (h : s.returned = (windowWords.map (wordOf v)).reverse ++ old) : s.stregValue = v := by
  have hl : (windowWords.map (wordOf v)).reverse.length = 18 := by simp [windowWords]
  rw [State.stregValue, h, List.take_left' hl, concatWords_words, BitVec.ofNat_toNat,
    BitVec.setWidth_eq]

/-! ## Window writes (R67) -/

theorem writeWindow_busy {s : State} (k : Reg) (j : Fin 18) (v : Word)
    (h : s.status.busy = true) : s.writeWindow k j v = s.raise .rfWriteWhileBusy := by
  simp [State.writeWindow, h]

theorem writeWindow_idle {s : State} (k : Reg) (j : Fin 18) (v : Word)
    (h : s.status.busy = false) :
    s.writeWindow k j v = { s with x := s.x.set k.val (setWordOf (s.reg k) j v) k.isLt } := by
  simp [State.writeWindow, h]

theorem reg_writeWindow_self {s : State} (k : Reg) (j : Fin 18) (v : Word)
    (h : s.status.busy = false) : (s.writeWindow k j v).reg k = setWordOf (s.reg k) j v := by
  rw [writeWindow_idle k j v h]; simp [State.reg]

theorem reg_writeWindow_ne {s : State} {k r : Reg} (j : Fin 18) (v : Word) (hr : r ≠ k) :
    (s.writeWindow k j v).reg r = s.reg r := by
  cases h : s.status.busy with
  | true => rw [writeWindow_busy k j v h]; rfl
  | false =>
    rw [writeWindow_idle k j v h]
    simp only [State.reg]
    rw [Vector.getElem_set_ne]
    exact fun hc => hr (Fin.ext hc.symm)

/-! ## What a write can do (R71) -/

/-- The eight cases of a bus write. -/
theorem busWrite_cases (s : State) (a : Addr) (v : Word) :
    (a.toNat / 4 = 2 ∧ s.busWrite a v = s.writeCtrl v) ∨
    (a.toNat / 4 = 3 ∧ s.busWrite a v = s.writeStatus v) ∨
    (a.toNat / 4 = 4 ∧ s.busWrite a v = s.issue v) ∨
    (∃ k j, a.toNat / 4 = 512 + 32 * k.val + j.val ∧ s.busWrite a v = s.writeWindow k j v) ∨
    (512 ≤ a.toNat / 4 ∧ 18 ≤ a.toNat / 4 % 32 ∧ s.busWrite a v = s.writeWindowReserved) ∨
    ((a.toNat / 4 < 2 ∨ (5 ≤ a.toNat / 4 ∧ a.toNat / 4 < 512)) ∧ s.busWrite a v = s) := by
  unfold State.busWrite
  rcases locOf_cases a with ⟨h, hl⟩ | ⟨h, hl⟩ | ⟨h, hl⟩ | ⟨h, hl⟩ | ⟨h, hl⟩ | ⟨h, h', hl⟩ |
    ⟨k, j, h, hl⟩ | ⟨h, h', k, hl⟩ <;> rw [hl]
  · exact .inr (.inr (.inr (.inr (.inr ⟨by omega, rfl⟩))))
  · exact .inr (.inr (.inr (.inr (.inr ⟨by omega, rfl⟩))))
  · exact .inl ⟨h, rfl⟩
  · exact .inr (.inl ⟨h, rfl⟩)
  · exact .inr (.inr (.inl ⟨h, rfl⟩))
  · exact .inr (.inr (.inr (.inr (.inr ⟨by omega, rfl⟩))))
  · exact .inr (.inr (.inr (.inl ⟨k, j, h, rfl⟩)))
  · exact .inr (.inr (.inr (.inr (.inl ⟨h, h', rfl⟩))))

/-- A write to CTRL resets or sets IRQ_EN (R26). -/
theorem writeCtrl_cases (s : State) (v : Word) :
    (v.toNat % 2 = 1 ∧ s.writeCtrl v = s.doReset) ∨
    (v.toNat % 2 = 0 ∧ s.writeCtrl v = { s with irqEn := v.getLsbD 1 }) := by
  have h0 : v.getLsbD 0 = decide (v.toNat % 2 = 1) := by
    simp [BitVec.getLsbD, Nat.testBit_zero]
  unfold State.writeCtrl
  by_cases h : v.toNat % 2 = 1
  · exact .inl ⟨h, by rw [h0, if_pos (by simpa using h)]⟩
  · exact .inr ⟨by omega, by rw [h0, if_neg (by simpa using h)]⟩

end Sys2Proof.Machine
end

