-- ==== Sys2Proof/Laws/PerInstr.lean ====
section
/-! SUPPORT. Facts of every command as syntax, one lemma per constructor: the encoded word carries the
command's own OPC and leaves the reserved bits 0 (30_encoding.md R90, R99). -/

namespace Sys2Proof

/-- The row of the opcode map a command stands in (R99). -/
def Instr.opcode : Instr → Opcode
  | .nop => .nop
  | .add _ _ _ _ => .add
  | .sub _ _ _ _ => .sub
  | .rquick _ _ _ => .rquick
  | .madd _ _ _ _ => .madd
  | .msub _ _ _ _ => .msub
  | .mul _ _ _ _ => .mul
  | .mmul _ _ _ _ => .mmul
  | .minv _ _ _ => .minv
  | .fred _ _ _ => .fred
  | .bred _ _ _ => .bred
  | .ladder _ _ _ => .ladder
  | .eddbl _ _ => .eddbl
  | .edadd _ _ _ => .edadd
  | .jdbl _ _ => .jdbl
  | .jadd _ _ _ => .jadd
  | .smul521 _ _ _ => .smul521
  | .edsmulCt _ _ _ => .edsmulCt
  | .edsmulVt _ _ _ => .edsmulVt

/-- The shape of a command's word. -/
def Laws.EncodedShape.Statement (i : Instr) : Prop :=
  fieldOpc (encode i) = i.opcode.code ∧ fieldReserved11 (encode i) = false ∧
    fieldReservedTop (encode i) = 0

theorem encodedShape_commandWord (opc : BitVec 8) (msel : BitVec 2) (b : Bool) (rd rs1 rs2 : Reg) :
    fieldOpc (commandWord opc msel b rd rs1 rs2) = opc ∧
      fieldReserved11 (commandWord opc msel b rd rs1 rs2) = false ∧
      fieldReservedTop (commandWord opc msel b rd rs1 rs2) = 0 :=
  ⟨fieldOpc_commandWord _ _ _ _ _ _, fieldReserved11_commandWord _ _ _ _ _ _,
    fieldReservedTop_commandWord _ _ _ _ _ _⟩

theorem Laws.EncodedShape.nop : Laws.EncodedShape.Statement .nop :=
  encodedShape_commandWord _ _ _ _ _ _

theorem Laws.EncodedShape.add (m : Msel) (rd rs1 rs2 : Reg) :
    Laws.EncodedShape.Statement (.add m rd rs1 rs2) := encodedShape_commandWord _ _ _ _ _ _

theorem Laws.EncodedShape.sub (m : Msel) (rd rs1 rs2 : Reg) :
    Laws.EncodedShape.Statement (.sub m rd rs1 rs2) := encodedShape_commandWord _ _ _ _ _ _

theorem Laws.EncodedShape.madd (m : Msel) (rd rs1 rs2 : Reg) :
    Laws.EncodedShape.Statement (.madd m rd rs1 rs2) := encodedShape_commandWord _ _ _ _ _ _

theorem Laws.EncodedShape.msub (m : Msel) (rd rs1 rs2 : Reg) :
    Laws.EncodedShape.Statement (.msub m rd rs1 rs2) := encodedShape_commandWord _ _ _ _ _ _

theorem Laws.EncodedShape.mul (m : Msel) (rd rs1 rs2 : Reg) :
    Laws.EncodedShape.Statement (.mul m rd rs1 rs2) := encodedShape_commandWord _ _ _ _ _ _

theorem Laws.EncodedShape.mmul (m : Msel) (rd rs1 rs2 : Reg) :
    Laws.EncodedShape.Statement (.mmul m rd rs1 rs2) := encodedShape_commandWord _ _ _ _ _ _

theorem Laws.EncodedShape.rquick (m : Msel) (rd rs1 : Reg) :
    Laws.EncodedShape.Statement (.rquick m rd rs1) := encodedShape_commandWord _ _ _ _ _ _

theorem Laws.EncodedShape.minv (m : Msel) (rd rs1 : Reg) :
    Laws.EncodedShape.Statement (.minv m rd rs1) := encodedShape_commandWord _ _ _ _ _ _

theorem Laws.EncodedShape.fred (m : Msel) (rd rs1 : Reg) :
    Laws.EncodedShape.Statement (.fred m rd rs1) := encodedShape_commandWord _ _ _ _ _ _

theorem Laws.EncodedShape.bred (m : Msel) (rd rs1 : Reg) :
    Laws.EncodedShape.Statement (.bred m rd rs1) := encodedShape_commandWord _ _ _ _ _ _

theorem Laws.EncodedShape.ladder (rd rs1 : Reg) (p : PointSrc) :
    Laws.EncodedShape.Statement (.ladder rd rs1 p) := encodedShape_commandWord _ _ _ _ _ _

theorem Laws.EncodedShape.smul521 (rd rs1 : Reg) (p : PointSrc) :
    Laws.EncodedShape.Statement (.smul521 rd rs1 p) := encodedShape_commandWord _ _ _ _ _ _

theorem Laws.EncodedShape.edsmulCt (rd rs1 : Reg) (p : PointSrc) :
    Laws.EncodedShape.Statement (.edsmulCt rd rs1 p) := encodedShape_commandWord _ _ _ _ _ _

theorem Laws.EncodedShape.edsmulVt (rd rs1 : Reg) (p : PointSrc) :
    Laws.EncodedShape.Statement (.edsmulVt rd rs1 p) := encodedShape_commandWord _ _ _ _ _ _

theorem Laws.EncodedShape.eddbl (rd rs1 : Reg) :
    Laws.EncodedShape.Statement (.eddbl rd rs1) := encodedShape_commandWord _ _ _ _ _ _

theorem Laws.EncodedShape.jdbl (rd rs1 : Reg) :
    Laws.EncodedShape.Statement (.jdbl rd rs1) := encodedShape_commandWord _ _ _ _ _ _

theorem Laws.EncodedShape.edadd (rd rs1 rs2 : Reg) :
    Laws.EncodedShape.Statement (.edadd rd rs1 rs2) := encodedShape_commandWord _ _ _ _ _ _

theorem Laws.EncodedShape.jadd (rd rs1 rs2 : Reg) :
    Laws.EncodedShape.Statement (.jadd rd rs1 rs2) := encodedShape_commandWord _ _ _ _ _ _

end Sys2Proof
end

