-- ==== Sys2Proof/Laws/Step.lean ====
section
/-! SUPPORT. What one step can do, said once: a completion, or one of the outside world's actions. -/

namespace Sys2Proof.Machine

open Sys2Proof

theorem step_of_ready {s : State} (h : s.engineReady = true) : step s = s.engineStep := by
  simp [step, h]

theorem step_of_not_ready {s : State} (h : s.engineReady = false) :
    step s = .next s.worldStep := by
  simp [step, h]

theorem worldStep_nil {s : State} (h : s.agenda = []) : s.worldStep = s.tick := by
  simp [State.worldStep, h]

theorem worldStep_cons {s : State} {ev : HostEvent} {rest : List HostEvent}
    (h : s.agenda = ev :: rest) : s.worldStep = s.hostStep ev rest := by
  simp [State.worldStep, h]

/-- The engine runs the command CMD decodes to, or stops by name (10_state.md R23, R42). -/
theorem engineStep_cases (s : State) :
    (∃ i, decode s.cmd = .ok i ∧ s.engineStep = exec i s) ∨
    (∃ e, check s.cmd = some e ∧ s.engineStep = .fault (.inFlightRejected e)) := by
  cases h : decode s.cmd with
  | ok i => exact .inl ⟨i, rfl, by simp [State.engineStep, h]⟩
  | error e => exact .inr ⟨e, (decode_eq_error_iff _ _).mp h, by simp [State.engineStep, h]⟩

/-- Every next state: a completion, a cycle, or the head of the agenda carried out. -/
theorem step_cases {s t : State} (h : step s = .next t) :
    (s.engineReady = true ∧ ∃ i r, decode s.cmd = .ok i ∧ exec i s = .next t ∧ t = s.complete r) ∨
    (s.engineReady = false ∧ s.agenda = [] ∧ t = s.tick) ∨
    (s.engineReady = false ∧ ∃ ev rest, s.agenda = ev :: rest ∧ t = s.hostStep ev rest) := by
  cases hr : s.engineReady with
  | true =>
    rw [step_of_ready hr] at h
    rcases engineStep_cases s with ⟨i, hd, he⟩ | ⟨e, _, he⟩
    · rw [he] at h
      obtain ⟨_, r, hc⟩ := exec_next h
      exact .inl ⟨rfl, i, r, hd, h, hc⟩
    · rw [he] at h; cases h
  | false =>
    rw [step_of_not_ready hr] at h
    have ht : t = s.worldStep := by cases h; rfl
    cases ha : s.agenda with
    | nil => exact .inr (.inl ⟨rfl, rfl, by rw [ht, worldStep_nil ha]⟩)
    | cons ev rest => exact .inr (.inr ⟨rfl, ev, rest, rfl, by rw [ht, worldStep_cons ha]⟩)

/-- A step from a state in which a decodable command is in flight completes it or is a next step. -/
theorem step_next_of_decodable {s : State} {i : Instr} (h : decode s.cmd = .ok i) :
    ∃ t, step s = .next t := by
  cases hr : s.engineReady with
  | true =>
    obtain ⟨r, he⟩ := exec_of_wellFormed s (decode_wellFormed h)
    exact ⟨_, by rw [step_of_ready hr]; simp [State.engineStep, h, he]; rfl⟩
  | false => exact ⟨_, step_of_not_ready hr⟩

/-- A run takes its first step (Host.Core.run). -/
theorem run_succ_of_step {s t : State} (k : Nat) (h : step s = .next t) :
    core.run (k + 1) s = core.run k t := by
  have h' : core.step s = .next t := h
  simp only [Host.Core.run, h']

/-- The counting down of an in-flight command with nothing pending from outside (R33, R330). -/
theorem step_of_counting {s : State} {f : InFlight} (hb : s.status.busy = true)
    (hf : s.inflight = some f) (hc : f.cycles ≠ 0) (ha : s.agenda = []) :
    step s = .next { s with inflight := some { f with cycles := f.cycles - 1 } }.work := by
  have hr : s.engineReady = false := by
    rw [Bool.eq_false_iff]
    intro h
    obtain ⟨-, g, hg, h0⟩ := (engineReady_iff s).mp h
    rw [hf] at hg
    cases hg
    exact hc h0
  rw [step_of_not_ready hr, worldStep_nil ha, tick_busy hb hf]

/-- Reads from an IDLE state: one step each, the answers returned in order, the block unchanged (R71). -/
theorem run_reads (as : List Addr) (rest : List HostEvent) {s : State} (hb : s.status.busy = false)
    (ha : s.agenda = as.map HostEvent.read ++ rest) :
    core.run as.length s =
      .next { s with agenda := rest, returned := (as.map s.busRead).reverse ++ s.returned } := by
  induction as generalizing s with
  | nil =>
    simp only [List.map_nil, List.nil_append] at ha
    subst ha
    rfl
  | cons a as ih =>
    have hr : s.engineReady = false := by simp [State.engineReady, hb]
    let t : State := { s with agenda := as.map HostEvent.read ++ rest }.hostRead a
    have hs : step s = .next t := by rw [step_of_not_ready hr, worldStep_cons ha]; rfl
    rw [List.length_cons, run_succ_of_step _ hs, ih (s := t) hb rfl]
    simp only [List.map_cons, List.reverse_cons, List.append_assoc, List.singleton_append]
    rfl

end Sys2Proof.Machine
end

