-- ==== Sys2Proof/Tests/Slice0.lean ====
section
/-! SUPPORT. Tests of the model: the well-formedness checks, the decoding of words written out field by
field, one completion step per row of 95_test_vectors.md chosen, the bus and error rows, and, for every
statement of Certificates/Slice0/Obligations.lean with hypotheses, a concrete case that meets them.
Expected values are those of spec/95_test_vectors.md (the vector is named) or of the rule named. -/

namespace Sys2Proof.Tests

set_option Elab.async false

open Sys2Proof Sys2Proof.Machine

/-! ## Helpers -/

/-- The reset state of a block with limb width `l` and every `LAT` 1, with registers loaded. -/
def loaded (l : LimbBits) (ws : Writes) : State :=
  { State.reset with params := ⟨l, []⟩, x := applyWrites (Vector.replicate 16 0) ws }

/-- One completion step of the command word `w`. -/
def after (l : LimbBits) (ws : Writes) (w : Nat) : Host.Outcome State Fault Refusal :=
  step ((loaded l ws).withFetchWord 32 w)

/-- The next state is IDLE and DONE, holds these registers, and has these flags. -/
def shows (o : Host.Outcome State Fault Refusal) (rs : Writes) (f : Flags) : Bool :=
  match o with
  | .next t => rs.all (fun p => (t.reg p.1).toNat == p.2) && decide (t.flags = f) &&
      decide t.Completed
  | .fault _ => false
  | .refused _ => false

/-- STATUS after a write of `v` to CMD in state `s`. -/
def statusAfterIssue (s : State) (v : Word) : Word := (s.busWrite 0x010 v).busRead 0x00C

/-- An IDLE block. -/
def idle : State := loaded .b32 [(0, 2 ^ 256 - 1), (1, 1)]

/-- `ADD.F25519 r2, r0, r1` in flight, its count run out. -/
def ready : State := idle.withFetchWord 32 0x00102010

/-- The same with a cycle still to run. -/
def running : State := { ready with inflight := some ⟨0x00102010, 1⟩ }

/-- An IDLE block with DONE and ERR set: vector V111. -/
def errored : State := idle.busWrite 0x010 0x000000FF

/-- The state `s` with the outside world about to act. -/
def facing (s : State) (evs : List HostEvent) : State := { s with agenda := evs }

/-! ## Well-formedness: a term for each check that the check refuses -/

theorem test_wf_mul_pair :
    Instr.wellFormed (.mul .f25519 15 0 0) = false ∧ Instr.wellFormed (.mul .f25519 14 0 0) = true := by decide

theorem test_wf_fred_msel_l25519 :
    Instr.wellFormed (.fred .l25519 0 0) = false ∧ Instr.wellFormed (.fred .f25519 0 14) = true := by decide

theorem test_wf_fred_msel_q521 :
    Instr.wellFormed (.fred .q521 0 0) = false ∧ Instr.wellFormed (.fred .f521 0 14) = true := by decide

theorem test_wf_fred_pair :
    Instr.wellFormed (.fred .f25519 0 15) = false ∧ Instr.wellFormed (.fred .f25519 15 14) = true := by decide

theorem test_wf_bred_msel_f25519 :
    Instr.wellFormed (.bred .f25519 0 0) = false ∧ Instr.wellFormed (.bred .l25519 0 14) = true := by decide

theorem test_wf_bred_msel_f521 :
    Instr.wellFormed (.bred .f521 0 0) = false ∧ Instr.wellFormed (.bred .q521 0 14) = true := by decide

theorem test_wf_bred_pair :
    Instr.wellFormed (.bred .l25519 0 15) = false ∧ Instr.wellFormed (.bred .l25519 15 14) = true := by decide

theorem test_wf_eddbl_rd :
    Instr.wellFormed (.eddbl 13 0) = false ∧ Instr.wellFormed (.eddbl 12 0) = true := by decide

theorem test_wf_eddbl_rs1 :
    Instr.wellFormed (.eddbl 0 13) = false ∧ Instr.wellFormed (.eddbl 0 12) = true := by decide

theorem test_wf_edadd_rd :
    Instr.wellFormed (.edadd 13 0 0) = false ∧ Instr.wellFormed (.edadd 12 0 0) = true := by decide

theorem test_wf_edadd_rs1 :
    Instr.wellFormed (.edadd 0 13 0) = false ∧ Instr.wellFormed (.edadd 0 12 0) = true := by decide

theorem test_wf_edadd_rs2 :
    Instr.wellFormed (.edadd 0 0 13) = false ∧ Instr.wellFormed (.edadd 0 0 12) = true := by decide

theorem test_wf_jdbl_rd :
    Instr.wellFormed (.jdbl 14 0) = false ∧ Instr.wellFormed (.jdbl 13 0) = true := by decide

theorem test_wf_jdbl_rs1 :
    Instr.wellFormed (.jdbl 0 14) = false ∧ Instr.wellFormed (.jdbl 0 13) = true := by decide

theorem test_wf_jadd_rd :
    Instr.wellFormed (.jadd 14 0 0) = false ∧ Instr.wellFormed (.jadd 13 0 0) = true := by decide

theorem test_wf_jadd_rs1 :
    Instr.wellFormed (.jadd 0 14 0) = false ∧ Instr.wellFormed (.jadd 0 13 0) = true := by decide

theorem test_wf_jadd_rs2 :
    Instr.wellFormed (.jadd 0 0 15) = false ∧ Instr.wellFormed (.jadd 0 0 14) = true := by decide

theorem test_wf_smul521_rd :
    Instr.wellFormed (.smul521 15 0 .base) = false ∧ Instr.wellFormed (.smul521 14 15 .base) = true := by decide

theorem test_wf_smul521_rs2 :
    Instr.wellFormed (.smul521 0 0 (.reg 15)) = false ∧ Instr.wellFormed (.smul521 0 0 (.reg 14)) = true := by decide

theorem test_wf_edsmulCt_rd :
    Instr.wellFormed (.edsmulCt 13 0 .base) = false ∧ Instr.wellFormed (.edsmulCt 12 15 .base) = true := by decide

theorem test_wf_edsmulCt_rs2 :
    Instr.wellFormed (.edsmulCt 0 0 (.reg 13)) = false ∧ Instr.wellFormed (.edsmulCt 0 0 (.reg 12)) = true := by decide

theorem test_wf_edsmulVt_rd :
    Instr.wellFormed (.edsmulVt 13 0 .base) = false ∧ Instr.wellFormed (.edsmulVt 12 15 .base) = true := by decide

theorem test_wf_edsmulVt_rs2 :
    Instr.wellFormed (.edsmulVt 0 0 (.reg 13)) = false ∧ Instr.wellFormed (.edsmulVt 0 0 (.reg 12)) = true := by decide

theorem test_illFormed_is_refused :
    exec (.mul .f25519 15 0 0) idle = .refused .illFormed := by rfl

/-! ## Decoding: words written out as `reserved ++ RS2 ++ RS1 ++ RD ++ 0 ++ B ++ MSEL ++ OPC` (R90, R99) -/

/-- as in R101 -/
theorem test_decode_nop :
    decode (0#8 ++ 0#4 ++ 0#4 ++ 0#4 ++ 0#1 ++ 0#1 ++ 0#2 ++ 0x00#8) = .ok (.nop) := by
  decide +kernel

/-- R98: register fields and MSEL ignored -/
theorem test_decode_nop_ignored_fields :
    decode (0#8 ++ 15#4 ++ 14#4 ++ 13#4 ++ 0#1 ++ 0#1 ++ 3#2 ++ 0x00#8) = .ok (.nop) := by
  decide +kernel

theorem test_decode_add :
    decode (0#8 ++ 6#4 ++ 5#4 ++ 4#4 ++ 0#1 ++ 0#1 ++ 3#2 ++ 0x10#8) = .ok (.add .q521 4 5 6) := by
  decide +kernel

theorem test_decode_sub :
    decode (0#8 ++ 6#4 ++ 5#4 ++ 4#4 ++ 0#1 ++ 0#1 ++ 2#2 ++ 0x11#8) = .ok (.sub .f521 4 5 6) := by
  decide +kernel

/-- RS2 ignored -/
theorem test_decode_rquick :
    decode (0#8 ++ 6#4 ++ 5#4 ++ 4#4 ++ 0#1 ++ 0#1 ++ 1#2 ++ 0x12#8) = .ok (.rquick .l25519 4 5) := by
  decide +kernel

theorem test_decode_madd :
    decode (0#8 ++ 6#4 ++ 5#4 ++ 4#4 ++ 0#1 ++ 0#1 ++ 0#2 ++ 0x13#8) = .ok (.madd .f25519 4 5 6) := by
  decide +kernel

theorem test_decode_msub :
    decode (0#8 ++ 6#4 ++ 5#4 ++ 4#4 ++ 0#1 ++ 0#1 ++ 2#2 ++ 0x14#8) = .ok (.msub .f521 4 5 6) := by
  decide +kernel

theorem test_decode_mul :
    decode (0#8 ++ 6#4 ++ 5#4 ++ 14#4 ++ 0#1 ++ 0#1 ++ 1#2 ++ 0x20#8) = .ok (.mul .l25519 14 5 6) := by
  decide +kernel

/-- R101 -/
theorem test_decode_mmul :
    decode (0#8 ++ 1#4 ++ 0#4 ++ 2#4 ++ 0#1 ++ 0#1 ++ 0#2 ++ 0x21#8) = .ok (.mmul .f25519 2 0 1) := by
  decide +kernel

/-- program P4 -/
theorem test_decode_minv :
    decode (0#8 ++ 0#4 ++ 0#4 ++ 9#4 ++ 0#1 ++ 0#1 ++ 3#2 ++ 0x22#8) = .ok (.minv .q521 9 0) := by
  decide +kernel

/-- R101 -/
theorem test_decode_fred :
    decode (0#8 ++ 0#4 ++ 4#4 ++ 3#4 ++ 0#1 ++ 0#1 ++ 2#2 ++ 0x30#8) = .ok (.fred .f521 3 4) := by
  decide +kernel

/-- program P5 -/
theorem test_decode_bred :
    decode (0#8 ++ 0#4 ++ 12#4 ++ 14#4 ++ 0#1 ++ 0#1 ++ 1#2 ++ 0x31#8) = .ok (.bred .l25519 14 12) := by
  decide +kernel

/-- program P2 -/
theorem test_decode_ladder :
    decode (0#8 ++ 3#4 ++ 0#4 ++ 4#4 ++ 0#1 ++ 0#1 ++ 0#2 ++ 0x40#8) = .ok (.ladder 4 0 (.reg 3)) := by
  decide +kernel

/-- V120 -/
theorem test_decode_ladder_base :
    decode (0#8 ++ 15#4 ++ 0#4 ++ 1#4 ++ 0#1 ++ 1#1 ++ 0#2 ++ 0x40#8) = .ok (.ladder 1 0 .base) := by
  decide +kernel

/-- RS2 ignored -/
theorem test_decode_eddbl :
    decode (0#8 ++ 9#4 ++ 12#4 ++ 11#4 ++ 0#1 ++ 0#1 ++ 0#2 ++ 0x50#8) = .ok (.eddbl 11 12) := by
  decide +kernel

/-- R101 -/
theorem test_decode_edadd :
    decode (0#8 ++ 8#4 ++ 0#4 ++ 4#4 ++ 0#1 ++ 0#1 ++ 0#2 ++ 0x51#8) = .ok (.edadd 4 0 8) := by
  decide +kernel

/-- RS2 ignored -/
theorem test_decode_jdbl :
    decode (0#8 ++ 9#4 ++ 13#4 ++ 12#4 ++ 0#1 ++ 0#1 ++ 2#2 ++ 0x60#8) = .ok (.jdbl 12 13) := by
  decide +kernel

theorem test_decode_jadd :
    decode (0#8 ++ 14#4 ++ 13#4 ++ 12#4 ++ 0#1 ++ 0#1 ++ 2#2 ++ 0x61#8) = .ok (.jadd 12 13 14) := by
  decide +kernel

theorem test_decode_smul521 :
    decode (0#8 ++ 14#4 ++ 15#4 ++ 13#4 ++ 0#1 ++ 0#1 ++ 2#2 ++ 0x70#8) = .ok (.smul521 13 15 (.reg 14)) := by
  decide +kernel

/-- R101 -/
theorem test_decode_smul521_base :
    decode (0#8 ++ 0#4 ++ 0#4 ++ 2#4 ++ 0#1 ++ 1#1 ++ 2#2 ++ 0x70#8) = .ok (.smul521 2 0 .base) := by
  decide +kernel

theorem test_decode_edsmulCt :
    decode (0#8 ++ 12#4 ++ 15#4 ++ 11#4 ++ 0#1 ++ 0#1 ++ 0#2 ++ 0x71#8) = .ok (.edsmulCt 11 15 (.reg 12)) := by
  decide +kernel

/-- program P5 -/
theorem test_decode_edsmulCt_base :
    decode (0#8 ++ 0#4 ++ 0#4 ++ 4#4 ++ 0#1 ++ 1#1 ++ 0#2 ++ 0x71#8) = .ok (.edsmulCt 4 0 .base) := by
  decide +kernel

theorem test_decode_edsmulVt :
    decode (0#8 ++ 12#4 ++ 15#4 ++ 11#4 ++ 0#1 ++ 0#1 ++ 0#2 ++ 0x72#8) = .ok (.edsmulVt 11 15 (.reg 12)) := by
  decide +kernel

/-- 46, R252 -/
theorem test_decode_edsmulVt_base :
    decode (0#8 ++ 0#4 ++ 0#4 ++ 4#4 ++ 0#1 ++ 1#1 ++ 0#2 ++ 0x72#8) = .ok (.edsmulVt 4 0 .base) := by
  decide +kernel

theorem test_decodeTableWord :
    decodeTableWord 32 0x00102021 = some (.mmul .f25519 2 0 1) ∧
    decodeTableWord 32 0x000000FF = none := by decide +kernel

/-- R102: the pseudo-instructions. -/
theorem test_pseudo :
    encode (Instr.msqr .f25519 1 1) = 0x00111021 ∧ encode (Instr.mdbl .q521 2 3) = 0x00332313 := by
  decide +kernel

/-! ## The constant ROM: the checks of 95_test_vectors.md §2.9 -/

theorem test_rom :
    romP521 = 2 ^ 521 - 1 ∧
    romL25519 = 0x1000000000000000000000000000000014def9dea2f79cd65812631a5cf5d3ed ∧
    romP25519 = 0x7fffffffffffffffffffffffffffffffffffffffffffffffffffffffffffffed := by
  decide +kernel

/-- V130, V131, V132, V133 -/
theorem test_rom_ed25519 :
    (romEdD * 121666 + 121665) % romP25519 = 0 ∧ romEdBY * 5 % romP25519 = 4 ∧
    romEdBX * romEdBY % romP25519 = romEdBT ∧
    (romEdBY ^ 2 + 2 * romP25519 ^ 5) % romP25519 =
      (romEdBX ^ 2 + 1 + romEdD * romEdBX ^ 2 * romEdBY ^ 2) % romP25519 := by decide +kernel

/-- V137 -/
theorem test_rom_p521 :
    (romGY521 ^ 2 + 3 * romGX521) % romP521 = (romGX521 ^ 3 + romB521) % romP521 := by decide +kernel

/-! ## Completion steps (95_test_vectors.md §2, §3) -/

theorem test_nop_V110 : shows (after .b32 [] 0x00000000) [(0, 0)] ⟨false, false, false⟩ = true := by
  decide +kernel

theorem test_add_V1 :
    shows (after .b64 ([(0, 2 ^ 256 - 1), (1, 1)]) 0x00102010)
      [(2, 0), (0, 2 ^ 256 - 1)] ⟨true, true, true⟩ = true := by
  decide +kernel

theorem test_add_V4 :
    shows (after .b32 ([(0, 2 ^ 528 - 1), (1, 1)]) 0x00102210)
      [(2, 2 ^ 528)] ⟨false, true, false⟩ = true := by
  decide +kernel

theorem test_sub_V6 :
    shows (after .b8 ([(0, 0), (1, 1)]) 0x00102011)
      [(2, 2 ^ 256 - 1)] ⟨true, true, false⟩ = true := by
  decide +kernel

theorem test_sub_V7 :
    shows (after .b8 ([(0, 123)]) 0x00002011)
      [(2, 0)] ⟨false, true, true⟩ = true := by
  decide +kernel

theorem test_rquick_V10 :
    shows (after .b16 ([(0, 2 * romP25519 + 5)]) 0x00001012)
      [(1, romP25519 + 5)] ⟨false, false, false⟩ = true := by
  decide +kernel

theorem test_rquick_V11 :
    shows (after .b16 ([(0, romP521 - 1)]) 0x00001312)
      [(1, 0x5ae79787c40d069948033feb708f65a2fc44a36477663b851449048e16ec79bf5)] ⟨false, false, false⟩ = true := by
  decide +kernel

theorem test_madd_V12 :
    shows (after .b32 ([(0, romP25519 - 1), (1, romP25519 - 1)]) 0x00102013)
      [(2, 0x7fffffffffffffffffffffffffffffffffffffffffffffffffffffffffffffeb)] ⟨false, true, false⟩ = true := by
  decide +kernel

theorem test_madd_V13 :
    shows (after .b32 ([(0, 2 ^ 256 - 1), (1, 0)]) 0x00102013)
      [(2, 37)] ⟨false, false, false⟩ = true := by
  decide +kernel

theorem test_msub_V15 :
    shows (after .b32 ([(0, 0), (1, 1)]) 0x00102214)
      [(2, 2 ^ 521 - 2)] ⟨false, true, false⟩ = true := by
  decide +kernel

theorem test_msub_V16 :
    shows (after .b32 ([(0, 3), (1, 5)]) 0x00102114)
      [(2, 0x1000000000000000000000000000000014def9dea2f79cd65812631a5cf5d3eb)] ⟨false, true, false⟩ = true := by
  decide +kernel

theorem test_mul_V21 :
    shows (after .b32 ([(0, 0), (1, 7)]) 0x00100020)
      [(0, 0), (1, 0)] ⟨false, true, true⟩ = true := by
  decide +kernel

theorem test_mul_V22 :
    shows (after .b32 ([(0, romGX521), (1, romGY521)]) 0x00102220)
      [(2, 0x192ef58b525df753af358f4e3df002916809760f13974b30501415572e68376da4ac0ef8a9e9198810593ab88611e26dd85927b91ec2a37f39297f09b594566a6b87d3e0),
       (3, 0xd94e6731ec3d3c9c82833d1d06e03e1dba7b6d485916b114e72df6f63eb3c42129b12934ad9b7a91276ef2620e8b500586fb652519514722695870146880)] ⟨false, true, false⟩ = true := by
  decide +kernel

theorem test_mmul_V24 :
    shows (after .b32 ([(0, 2 ^ 255), (1, 2 ^ 255)]) 0x00102121)
      [(2, 0xce65046df0c268f73bb1cf485fd6f9983aac250d45b1a72ab0f4ecc96df62b2)] ⟨false, false, false⟩ = true := by
  decide +kernel

theorem test_mmul_V25 :
    shows (after .b32 ([(1, romP25519 - 1)]) 0x00111021)
      [(1, 1)] ⟨false, true, false⟩ = true := by
  decide +kernel

theorem test_minv_V28 :
    shows (after .b32 ([(0, 3)]) 0x00001322)
      [(1, 0xaaaaaaaaaaaaaaaaaaaaaaaaaaaaaaaaaaaaaaaaaaaaaaaaaaaaaaaaaaaaaaaaa8c5d782813fba87792a9955c2fd033745693c9892d8896d3a3e7a925f85bd76ae)] ⟨false, true, false⟩ = true := by
  decide +kernel

theorem test_minv_V30 :
    shows (after .b32 ([(0, romP25519)]) 0x00001022)
      [(1, 0)] ⟨false, false, true⟩ = true := by
  decide +kernel

theorem test_fred_V41 :
    shows (after .b32 ([(0, 2 ^ 256 - 1), (1, 2 ^ 256 - 1)]) 0x00002030)
      [(2, 0x5a3)] ⟨false, true, false⟩ = true := by
  decide +kernel

theorem test_fred_V45 :
    shows (after .b64 ([(0, 0), (1, 1)]) 0x00002230)
      [(2, 0x80000000000000)] ⟨false, true, false⟩ = true := by
  decide +kernel

theorem test_bred_V47 :
    shows (after .b32 ([(0, 2 ^ 256 - 1), (1, 2 ^ 256 - 1)]) 0x00002131)
      [(2, 0x399411b7c309a3dceec73d217f5be65d00e1ba768859347a40611e3449c0f00)] ⟨false, true, false⟩ = true := by
  decide +kernel

theorem test_bred_V48 :
    shows (after .b32 ([(0, romQ521 + 1), (1, 0)]) 0x00002331)
      [(2, 1)] ⟨false, true, false⟩ = true := by
  decide +kernel

theorem test_ladder_V63 :
    shows (after .b32 ([(0, 0x6a2cb91da5fb77b12a99c0eb872f4cdf4566b25172c1163c7da518730a6d0770 + 2 ^ 255)]) 0x00002440)
      [(2, 0x6a4e9baa8ea9a4ebf41a38260d3abf0d5af73eb4dc7d8b7454a7308909f02085)] ⟨false, true, false⟩ = true := by
  decide +kernel

theorem test_ladder_V65 :
    shows (after .b32 ([(0, 0x6a2cb91da5fb77b12a99c0eb872f4cdf4566b25172c1163c7da518730a6d0770), (1, 2 ^ 255 - 1)]) 0x00102040)
      [(2, 0x11f8f983633426569c99b12c12e3c0a782984a0f8fefff577a26679ad7689635)] ⟨false, false, false⟩ = true := by
  decide +kernel

theorem test_eddbl_V70 :
    shows (after .b32 ([(0, romEdBX), (1, romEdBY), (2, 1), (3, romEdBT)]) 0x00004050)
      [(4, 0x31241ddb9a7c254aea224b87b7b0f909886ec1ddfa71625b7aba864c18300a57),
       (5, 0x3324984c6cc933db69b782fc3ac951f60a47aa662bbe321c924b2cd95e2d7fd7),
       (6, 0x6986c5796b577c574098d1fa3b426292ebd36100339299d16374a93d0278de6b),
       (7, 0x18247dc974b59c9540e4564048a87e0fa362dabfedf0bb190eb34e071b4d4999)] ⟨false, true, false⟩ = true := by
  decide +kernel

theorem test_eddbl_V72_noncanonical :
    shows (after .b32 ([(0, romP25519), (1, 1), (2, 1), (3, 0)]) 0x00004050)
      [(4, 0), (5, romP25519 - 1), (6, romP25519 - 1), (7, 0)] ⟨false, false, false⟩ = true := by
  decide +kernel

theorem test_edadd_V71 :
    shows (after .b32 ([(0, romEdBX), (1, romEdBY), (2, 1), (3, romEdBT)] ++ [(8, romEdBX), (9, romEdBY), (10, 1), (11, romEdBT)]) 0x00804051)
      [(4, 0x3b6f8891960f6ad45776d1e1213c1bd9de44f888163a76921515e6cf9f3fd67e),
       (5, 0x336d9ece4cdb30925921f40f14dab827d6e156675107378db6d34c9a874a007e),
       (6, 0x59e4ea1a52a20ea2fd9cb81712f675b450b27bff31b598ba722d5b0bf61c8608),
       (7, 0x1f6e08da2d298daafc6ea6fedd5e07c172749500483d139bc532c7e392cad989)] ⟨false, true, false⟩ = true := by
  decide +kernel

theorem test_edadd_V73 :
    shows (after .b32 ([(0, romEdBX), (1, romEdBY), (2, 1), (3, romEdBT)] ++ [(9, 1), (10, 1)]) 0x00804051)
      [(4, 0x5a4db4f35b94ffb029388c7f75b7171a4b31d8254969ecb2558b5823c97547b),
       (5, 0x1999999999999999999999999999999999999999999999999999999999999999), (6, 4),
       (7, 0x1e1d7c3f5e2dd9959ba93a3992af8df483c27e01dd454bd5b77a2ace96df76c5)] ⟨false, true, false⟩ = true := by
  decide +kernel

theorem test_jdbl_V80 :
    shows (after .b32 ([(0, romGX521), (1, romGY521), (2, 1)]) 0x00003260)
      [(3, 0x44259ea5bea991cf09008267758f56a18f784d588a6f1c5c50110a439cfd22bb7fa8291b391748f14f8bd57f6f6a374f071a6033fae9474cdb6bcd283b3ab95be),
       (4, 0x1f71868b50c5700d82b28fca77bb9c6f4a35935361203260eb663a3860b1eb5c5c11fc1a1ef4780426b6a834e1cd7bfdb00a6c0c07290e0528e820d22bdd3a0ae05),
       (5, 0x307252d4f134778008b914bf6858fa37b331ea8892af3688d02f5f7a2e4e7ccc592fdce532bde84c818aa172027f5a0ec26a78e10d44e58481117d28ed3fa2cca1)] ⟨false, true, false⟩ = true := by
  decide +kernel

theorem test_jdbl_V81 :
    shows (after .b64 ([(0, 1), (1, 1)]) 0x00003260)
      [(3, 1), (4, 1), (5, 0)] ⟨false, true, true⟩ = true := by
  decide +kernel

theorem test_jadd_V83 :
    shows (after .b64 ([(3, 1), (4, 1), (0, romGX521), (1, romGY521)]) 0x00036261)
      [(6, romGX521), (7, romGY521), (8, 1)] ⟨false, true, false⟩ = true := by
  decide +kernel

theorem test_jadd_V86 :
    shows (after .b32 ([(3, 0x44259ea5bea991cf09008267758f56a18f784d588a6f1c5c50110a439cfd22bb7fa8291b391748f14f8bd57f6f6a374f071a6033fae9474cdb6bcd283b3ab95be),
       (4, 0x1f71868b50c5700d82b28fca77bb9c6f4a35935361203260eb663a3860b1eb5c5c11fc1a1ef4780426b6a834e1cd7bfdb00a6c0c07290e0528e820d22bdd3a0ae05),
       (5, 0x307252d4f134778008b914bf6858fa37b331ea8892af3688d02f5f7a2e4e7ccc592fdce532bde84c818aa172027f5a0ec26a78e10d44e58481117d28ed3fa2cca1), (0, romGX521), (1, romGY521)]) 0x00036261)
      [(6, 0x1c609ff6b0efa578ad334d39db87b8797f421e7b62d1381b7453eb9e3654030a88a950b7da3dac0c8b80ade61a29288d580496308755e93ccc8eb6e7d9898c0d616),
       (7, 0xe11cff5b0765b930c48f679fac57b3f16538d3bd7dd2e673e1d4daa0aecbb05e7a9f879029a812c4bd978b0ab05385b49d631e609421f9d161f99cd7c483ec304d),
       (8, 0xe4afc34d5223fdac919a86441610066a24ec8a3872e24c2caa864e17b643c2abe7a6cb864d9d7cd898b0d56229638e1ede9674ceb1ff26b9a5bb791e53f73207c7)] ⟨false, true, false⟩ = true := by
  decide +kernel

theorem test_smul521_V93 :
    shows (after .b32 ([(0, 3)]) 0x00002670)
      [(2, 0x1a73d352443de29195dd91d6a64b5959479b52a6e5b123d9ab9e5ad7a112d7a8dd1ad3f164a3a4832051da6bd16b59fe21baeb490862c32ea05a5919d2ede37ad7d),
       (3, 0x13e9b03b97dfa62ddd9979f86c6cab814f2f1557fa82a9d0317d2f8ab1fa355ceec2e2dd4cf8dc575b02d5aced1dec3c70cf105c9bc93a590425f588ca1ee86c0e5)] ⟨false, true, false⟩ = true := by
  decide +kernel

theorem test_smul521_V96 :
    shows (after .b32 ([(0, romQ521 + 2)]) 0x00002670)
      [(2, 0), (3, 0)] ⟨false, true, true⟩ = true := by
  decide +kernel

theorem test_edsmulCt_V100 :
    shows (after .b32 ([]) 0x00004471)
      [(4, 0), (5, romP25519 - 1), (6, romP25519 - 1), (7, 0)] ⟨false, true, false⟩ = true := by
  decide +kernel

theorem test_edsmulCt_V104 :
    shows (after .b32 ([(0, 0x4fe94d9006f020a5a3c080d96827fffd3c010ac0f12e7a42cb33284f86837c30)]) 0x00004471)
      [(4, 0x183b9d3b73dc610d03acb172edd1dd030c46bf3b886535fecd7232be55704c36),
       (5, 0x6a819cf68c0d714247d49218acc6afc519af95db0507ae503a5f75e124d07f30),
       (6, 0x10a201004ecd9b2ff4cd04ee6099312384ce05d63f9d189db729829664103082),
       (7, 0x5e463adc7d73fb1de3d491705e9addb62ff0521d8998fb8bbed8cc0247f08cef)] ⟨false, true, false⟩ = true := by
  decide +kernel

theorem test_edsmulVt_V104 :
    shows (after .b32 ([(0, 0x4fe94d9006f020a5a3c080d96827fffd3c010ac0f12e7a42cb33284f86837c30)]) 0x00004472)
      [(4, 0x183b9d3b73dc610d03acb172edd1dd030c46bf3b886535fecd7232be55704c36),
       (5, 0x6a819cf68c0d714247d49218acc6afc519af95db0507ae503a5f75e124d07f30),
       (6, 0x10a201004ecd9b2ff4cd04ee6099312384ce05d63f9d189db729829664103082),
       (7, 0x5e463adc7d73fb1de3d491705e9addb62ff0521d8998fb8bbed8cc0247f08cef)] ⟨false, true, false⟩ = true := by
  decide +kernel

theorem test_edsmulVt_V101 :
    shows (after .b32 ([(0, 1)]) 0x00004472)
      [(4, 0x5a4db4f35b94ffb029388c7f75b7171a4b31d8254969ecb2558b5823c97547b),
       (5, 0x1999999999999999999999999999999999999999999999999999999999999999), (6, 4),
       (7, 0x1e1d7c3f5e2dd9959ba93a3992af8df483c27e01dd454bd5b77a2ace96df76c5)] ⟨false, true, false⟩ = true := by
  decide +kernel

/-! ## The bus, errors, reset (95_test_vectors.md §2.8, program P6) -/

/-- V111 to V119 -/
theorem test_issue_errors :
    statusAfterIssue idle 0x000000FF = 0x00000106 ∧ statusAfterIssue idle 0x00000810 = 0x00000206 ∧
    statusAfterIssue idle 0x01000010 = 0x00000206 ∧ statusAfterIssue idle 0x00000410 = 0x00000206 ∧
    statusAfterIssue idle 0x00000160 = 0x00000306 ∧ statusAfterIssue idle 0x00000B60 = 0x00000206 ∧
    statusAfterIssue idle 0x0000F220 = 0x00000406 ∧ statusAfterIssue idle 0x000D0050 = 0x00000406 := by
  decide +kernel

/-- V117, V120, V121: accepted -/
theorem test_issue_accepts :
    statusAfterIssue idle 0x0000E220 = 0x00000001 ∧ statusAfterIssue idle 0x00F01440 = 0x00000001 ∧
    statusAfterIssue idle 0x00E02670 = 0x00000001 := by decide +kernel

/-- V122, V123, V124 -/
theorem test_after_error :
    (errored.busWrite 0x00C 6).busRead 0x00C = 0 ∧ statusAfterIssue errored 0x00000160 = 0x00000106 ∧
    (errored.busWrite 0x008 2).irq = true ∧ errored.busRead 0x010 = 0x000000FF := by decide +kernel

/-- P6 steps 11, 12, 13, and the order 0x06 before 0x05 kept -/
theorem test_busy_accesses :
    (running.busWrite 0x800 0x12345678).busRead 0x00C = 0x00000605 ∧ running.busRead 0x880 = 0 ∧
    ((running.busWrite 0x800 0x12345678).busWrite 0x010 0).busRead 0x00C = 0x00000605 ∧
    (running.busWrite 0x848 1).busRead 0x00C = 0x00000605 := by decide +kernel

/-- V125, with P6 step 17 -/
theorem test_soft_reset :
    (running.busWrite 0x008 3).busRead 0x00C = 0 ∧ (running.busWrite 0x008 3).busRead 0x008 = 0 ∧
    (running.busWrite 0x008 3).reg 0 = 0 := by decide +kernel

/-- 10_state.md R28's example, and R27 -/
theorem test_param : idle.busRead 0x004 = 0x02201020 ∧ idle.busRead 0x000 = 0x434F5245 := by
  decide +kernel

/-- 20_memory.md R65's examples: `x[3]` word 0 at 0x980, `x[15]` word 17 at 0xFC4 -/
theorem test_window :
    locOf 0x980 = .window 3 0 ∧ locOf 0xFC4 = .window 15 17 ∧ locOf 0xFC8 = .windowReserved 15 ∧
    locOf 0x7FC = .reserved ∧ locOf 0x014 = .reserved ∧ locOf 0x013 = .cmd := by decide +kernel

/-- Program P1: words 0 and 7 of `x[1]` -/
theorem test_streg_words :
    (loaded .b32 [(1, 0x6a4e9baa8ea9a4ebf41a38260d3abf0d5af73eb4dc7d8b7454a7308909f02085)]).busRead 0x880
      = 0x09f02085 ∧
    (loaded .b32 [(1, 0x6a4e9baa8ea9a4ebf41a38260d3abf0d5af73eb4dc7d8b7454a7308909f02085)]).busRead 0x89C
      = 0x6a4e9baa := by decide +kernel

/-- Program P1: the value of STREG r1, the words coming from an IDLE block -/
theorem test_streg_value :
    ((macroStreg 1).foldl (fun s ev => s.hostStep ev []) (loaded .b32
        [(1, 0x6a4e9baa8ea9a4ebf41a38260d3abf0d5af73eb4dc7d8b7454a7308909f02085)])).stregValue =
      0x6a4e9baa8ea9a4ebf41a38260d3abf0d5af73eb4dc7d8b7454a7308909f02085 := by decide +kernel

/-- 20_memory.md R69: the last bytes of the public key of 95 §1.1, and a big-endian pair. -/
theorem test_buffers : bufferLe [0x85, 0x20, 0xf0] = 0xf02085 ∧ bufferBe [0x85, 0x20] = 0x8520 := by
  decide

/-! ## Witnesses: for each statement with hypotheses, a case that meets them -/

/-- The states used below are sound (Safety.lean). -/
theorem test_sound : idle.Inv ∧ ready.Inv ∧ running.Inv ∧ errored.Inv := by
  refine ⟨?_, ?_, ?_, ?_⟩ <;> refine ⟨?_, ?_, ?_, ?_, ?_⟩ <;> first | rfl | skip
  all_goals first | (intro f hf; cases hf; decide +kernel) | decide +kernel

theorem witness_DecodeOfEncode :
    Instr.wellFormed (.jadd 13 13 14) = true ∧ encode (.jadd 13 13 14) = 0x00EDD261 := by
  decide +kernel

/-- A word with every ignored field set, and the command it decodes to. -/
theorem witness_DecodedWordsAreTheEncodings :
    decode 0x00F12612 = .error .reservedField ∧ decode 0x00F12212 = .ok (.rquick .f521 2 1) ∧
    Instr.wellFormed (.rquick .f521 2 1) = true ∧
    (0x00F12212 : Word) &&& (Instr.rquick .f521 2 1).fieldMask = encode (.rquick .f521 2 1) := by
  decide +kernel

/-- The ends of the ranges of R100. -/
theorem witness_IllegalOpcodeOnReservedOpc :
    ([0x01, 0x0F, 0x15, 0x1F, 0x23, 0x2F, 0x32, 0x3F, 0x41, 0x4F, 0x52, 0x5F, 0x62, 0x6F, 0x73,
      0xFF] : List Word).Forall (fun c => opcNum c ∉ listedOpcs ∧ decode c = .error .illegalOpcode) := by
  unfold opcNum listedOpcs; decide +kernel

theorem witness_ReservedFieldOnReservedBits :
    ReservedFieldSet 0x00000800 ∧ ReservedFieldSet 0x01000000 ∧ ReservedFieldSet 0x80000000 ∧
    ReservedFieldSet 0x00000400 ∧ ¬ ReservedFieldSet 0x00FFF740 ∧ opcNum 0x80000000 ∈ listedOpcs := by
  unfold ReservedFieldSet opcNum listedOpcs; decide +kernel

theorem witness_IllegalMselOnListedCases :
    ([0x130, 0x330, 0x031, 0x231, 0x140, 0x350, 0x251, 0x171, 0x372, 0x060, 0x161, 0x370] :
      List Word).Forall (fun v => opcNum v ∈ listedOpcs ∧ ¬ ReservedFieldSet v ∧ MselNotAccepted v) := by
  unfold ReservedFieldSet MselNotAccepted opcNum mselNum listedOpcs; decide +kernel

/-- One word past each end, and one at each end. -/
theorem witness_RegRangeAfterAllOtherChecks :
    (([0x0000F020, 0x000F0030, 0x000F0131, 0x0000D050, 0x000D0050, 0x0000D051, 0x000D0051,
        0x00D00051, 0x0000E260, 0x000E0260, 0x0000E261, 0x000E0261, 0x00F00261, 0x0000F270, 0x00F00270,
        0x0000D071, 0x00D00072] : List Word).Forall
      (fun v => opcNum v ∈ listedOpcs ∧ ¬ ReservedFieldSet v ∧ ¬ MselNotAccepted v ∧ GroupPastEnd v)) ∧
    (([0x00FFE020, 0x00FEF030, 0x00FCC050, 0x00CCC051, 0x00FDD260, 0x00EDD261, 0x00EFE270,
        0x00FFE670, 0x00CFC071, 0x00FFC472] : List Word).Forall (fun v => ¬ GroupPastEnd v)) := by
  dsimp only [List.Forall, ReservedFieldSet, MselNotAccepted, GroupPastEnd, opcNum, mselNum, listedOpcs]
  repeat' apply And.intro
  all_goals decide +kernel

/-- A write to CTRL at its last byte address, with IRQ_EN set beside SRST, while BUSY. -/
theorem witness_SoftResetClearsEverything :
    (0x00B : Addr).toNat / 4 = 2 ∧ (0xFFFFFFFF : Word).toNat % 2 = 1 ∧ running.status.busy = true := by
  decide +kernel

theorem witness_ResetForgetsThePast : running.params = idle.params ∧ running ≠ idle :=
  ⟨rfl, fun h => absurd (congrArg (fun s => s.status.busy) h) (by decide)⟩

theorem witness_StepKeepsSoundness :
    ready.Inv ∧ (∃ t, step ready = .next t) ∧ running.Inv ∧ ∃ t, step running = .next t :=
  ⟨test_sound.2.1, ⟨_, rfl⟩, test_sound.2.2.1, ⟨_, rfl⟩⟩

theorem witness_SoundStatesNeverStop : ready.Inv ∧ idle.Inv := ⟨test_sound.2.1, test_sound.1⟩

theorem witness_StepRunsTheDecodedCommand :
    ready.status.busy = true ∧ ready.inflight = some ⟨0x00102010, 0⟩ ∧
    decode ready.cmd = .ok (.add .f25519 2 0 1) := by decide +kernel

theorem witness_AcceptedCommandCompletesInTime :
    running.Inv ∧ running.inflight = some ⟨0x00102010, 1⟩ ∧ running.agenda = [] :=
  ⟨test_sound.2.2.1, rfl, rfl⟩

/-- A completion, the two resets, and an accepted command. -/
theorem witness_BusyChangesOnlyByIssueCompletionReset :
    (∃ t, step ready = .next t ∧ ready.status.busy = true ∧ t.status.busy = false) ∧
    (∃ t, step (facing running [.resetPin]) = .next t ∧ t.status.busy = false) ∧
    (∃ t, step (facing running [.write 0x008 1]) = .next t ∧ t.status.busy = false) ∧
    (∃ t, step (facing idle [.write 0x010 0]) = .next t ∧ idle.status.busy = false ∧
      t.status.busy = true) :=
  ⟨⟨_, rfl, rfl, rfl⟩, ⟨_, rfl, rfl⟩, ⟨_, rfl, rfl⟩, ⟨_, rfl, rfl, rfl⟩⟩

theorem witness_ErrClearedOnlyByHostOrReset :
    errored.status.err = true ∧
    (∃ t, step (facing errored [.write 0x00C 4]) = .next t ∧ t.status.err = false) ∧
    (∃ t, step (facing errored [.resetPin]) = .next t ∧ t.status.err = false) ∧
    (∃ t, step (facing errored [.write 0x008 1]) = .next t ∧ t.status.err = false) ∧
    (∃ t, step (facing errored [.write 0x010 0x810]) = .next t ∧ t.status.err = true) :=
  ⟨rfl, ⟨_, rfl, rfl⟩, ⟨_, rfl, rfl⟩, ⟨_, rfl, rfl⟩, ⟨_, rfl, rfl⟩⟩

/-- A completion, a reset, and a window write at the first and at the last data word. -/
theorem witness_OperandsChangeOnlyByCompletionIdleWriteReset :
    (∃ t, step (idle.withFetchWord 32 0x00002010) = .next t ∧ t.reg 2 ≠ idle.reg 2) ∧
    (∃ t, step (facing idle [.resetPin]) = .next t ∧ t.reg 1 ≠ idle.reg 1) ∧
    (∃ t, step (facing idle [.write 0x800 7]) = .next t ∧ t.reg 0 ≠ idle.reg 0) ∧
    (∃ t, step (facing idle [.write 0xFC4 7]) = .next t ∧ t.reg 15 ≠ idle.reg 15) := by
  refine ⟨⟨_, rfl, ?_⟩, ⟨_, rfl, ?_⟩, ⟨_, rfl, ?_⟩, ⟨_, rfl, ?_⟩⟩ <;> decide +kernel

theorem witness_CmdHoldsTheLastIdleWrite :
    (∃ t, step (facing idle [.write 0x010 0xFF]) = .next t ∧ t.cmd ≠ idle.cmd) ∧
    (∃ t, step (facing errored [.resetPin]) = .next t ∧ t.cmd ≠ errored.cmd) := by
  refine ⟨⟨_, rfl, ?_⟩, ⟨_, rfl, ?_⟩⟩ <;> decide +kernel

theorem witness_WorkingStorageIsNeverRead :
    (∃ t, step running = .next t) ∧ (∃ t, step ready = .next t) ∧
    ∃ t, step (facing running [.read 0x800]) = .next t := ⟨⟨_, rfl⟩, ⟨_, rfl⟩, ⟨_, rfl⟩⟩

/-- The first and the last byte address of each register. -/
theorem witness_ControlRegistersRead :
    ([0x000, 0x003] : List Addr).Forall (fun a => a.toNat / 4 = 0) ∧
    ([0x004, 0x007] : List Addr).Forall (fun a => a.toNat / 4 = 1) ∧
    ([0x008, 0x00B] : List Addr).Forall (fun a => a.toNat / 4 = 2) ∧
    ([0x00C, 0x00F] : List Addr).Forall (fun a => a.toNat / 4 = 3) ∧
    ([0x010, 0x013] : List Addr).Forall (fun a => a.toNat / 4 = 4) := by decide

/-- The ends of the reserved ranges. -/
theorem witness_ReservedOffsetsReadZeroIgnoreWrites :
    ([0x014, 0x7FC, 0x7FF] : List Addr).Forall (fun a => 5 ≤ a.toNat / 4 ∧ a.toNat / 4 < 512) ∧
    ([0x000, 0x007] : List Addr).Forall (fun a => a.toNat / 4 < 2) ∧
    ([0x848, 0x87F, 0xFC8, 0xFFF] : List Addr).Forall (fun a => 512 ≤ a.toNat / 4 ∧ 18 ≤ a.toNat / 4 % 32) ∧
    idle.status.busy = false := by decide +kernel

/-- The first and the last data word, IDLE and BUSY. -/
theorem witness_WindowReadsTheRegisterWord :
    (0x800 : Addr).toNat / 4 = 512 + 32 * (0 : Reg).val + (0 : Fin 18).val ∧
    (0xFC7 : Addr).toNat / 4 = 512 + 32 * (15 : Reg).val + (17 : Fin 18).val ∧
    idle.busRead 0x81C = 0xFFFFFFFF ∧ running.busRead 0x81C = 0 := by decide +kernel

theorem witness_WindowWriteReplacesOneWord :
    idle.status.busy = false ∧
    (0x847 : Addr).toNat / 4 = 512 + 32 * (0 : Reg).val + (17 : Fin 18).val ∧
    ((idle.busWrite 0x804 0).reg 0).toNat = 2 ^ 256 - 1 - (2 ^ 64 - 2 ^ 32) := by decide +kernel

theorem witness_BusyWritesAreDroppedAndRecorded :
    running.status.busy = true ∧ ([0x010, 0x013] : List Addr).Forall (fun a => a.toNat / 4 = 4) ∧
    ([0x800, 0x848, 0xFFF] : List Addr).Forall (fun a => 512 ≤ a.toNat / 4) := by decide +kernel

/-- One word for each of the four codes. -/
theorem witness_RejectedCommandSetsDoneAndErr :
    idle.status.busy = false ∧ decode 0xFF = .error .illegalOpcode ∧
    decode 0x810 = .error .reservedField ∧ decode 0x160 = .error .illegalMsel ∧
    decode 0xF220 = .error .regRange := by decide +kernel

theorem witness_AcceptedCommandGoesInFlight :
    errored.status.busy = false ∧ decode 0x00001440 = .ok (.ladder 1 0 .base) := by decide +kernel

/-- The four words that set neither bit, one bit, the other, both. -/
theorem witness_StatusWriteOneToClear :
    ([0x00C, 0x00F] : List Addr).Forall (fun a => a.toNat / 4 = 3) ∧
    (errored.busWrite 0x00C 0xFFFFFFF9).busRead 0x00C = 0x00000106 ∧
    (errored.busWrite 0x00C 2).busRead 0x00C = 0x00000104 ∧
    (errored.busWrite 0x00C 4).busRead 0x00C = 0x00000002 ∧
    (errored.busWrite 0x00C 6).busRead 0x00C = 0 := by decide +kernel

theorem witness_ReadsHaveNoSideEffect :
    (facing running [.read 0x800]).engineReady = false ∧
    (facing errored [.read 0x00C]).engineReady = false := by decide +kernel

theorem witness_BusyReadsRevealNoOperand : running.status.busy = true := rfl

theorem witness_InterruptLine :
    (0x008 : Addr).toNat / 4 = 2 ∧ (2 : Word).toNat % 2 = 0 ∧ (errored.busWrite 0x008 2).irq = true ∧
    (errored.busWrite 0x008 0).irq = false ∧ ∃ t, exec (.add .f25519 2 0 1) ready = .next t :=
  ⟨by decide, by decide, by decide +kernel, by decide +kernel, ⟨_, rfl⟩⟩

/-- The same OPC and MSEL, other registers and operands. -/
theorem witness_LatencyIgnoresOperands :
    idle.params = running.params ∧ (0x00102010 : Word).toNat % 2 ^ 10 = (0x00FFF410 : Word).toNat % 2 ^ 10 ∧
    opcNum 0x00102010 ≠ 0x72 := ⟨rfl, by decide, by unfold opcNum; decide⟩

/-- LDREG, and STREG. -/
theorem witness_LdregLoadsTheRegister :
    ((facing idle (macroLdreg 3 5 ++ [.cycle])).status.busy = false ∧
      (facing idle (macroLdreg 3 5 ++ [.cycle])).agenda = macroLdreg 3 5 ++ [.cycle]) ∧
    (facing idle (macroStreg 15 ++ [.cycle])).status.busy = false ∧
    (facing idle (macroStreg 15 ++ [.cycle])).agenda = macroStreg 15 ++ [.cycle] :=
  ⟨⟨rfl, rfl⟩, rfl, rfl⟩

theorem witness_OnlyIllFormedTermsAreRefused :
    Instr.wellFormed (.bred .f521 0 0) = false ∧ Instr.wellFormed (.bred .q521 0 0) = true := by decide

theorem witness_MulResult : (14 : Reg).val ≤ 14 ∧ (0 : Reg).val ≤ 14 := by decide

theorem witness_FredResult :
    (Msel.f25519 = .f25519 ∨ Msel.f25519 = .f521) ∧ (Msel.f521 = .f25519 ∨ Msel.f521 = .f521) ∧
    (14 : Reg).val ≤ 14 := by decide

theorem witness_BredResult :
    (Msel.l25519 = .l25519 ∨ Msel.l25519 = .q521) ∧ (Msel.q521 = .l25519 ∨ Msel.q521 = .q521) ∧
    (14 : Reg).val ≤ 14 := by decide

theorem witness_EddblResult : (12 : Reg).val ≤ 12 ∧ (0 : Reg).val ≤ 12 := by decide

theorem witness_EdaddResult : (12 : Reg).val ≤ 12 ∧ (4 : Reg).val ≤ 12 ∧ (0 : Reg).val ≤ 12 := by decide

theorem witness_JdblResult : (13 : Reg).val ≤ 13 ∧ (0 : Reg).val ≤ 13 := by decide

theorem witness_JaddResult : (13 : Reg).val ≤ 13 ∧ (3 : Reg).val ≤ 13 ∧ (14 : Reg).val ≤ 14 := by decide

/-- `P1 = (0, 1, 1)` with `P2 = (0, 1)`, and with `P2 = (0, -1)`. -/
theorem witness_JaddExceptionalCases :
    (1 : ZMod romP521) ≠ 0 ∧ (0 : ZMod romP521) * 1 ^ 2 = 0 ∧ (1 : ZMod romP521) * 1 ^ 3 = 1 ∧
    (-1 : ZMod romP521) * 1 ^ 3 = -1 := by
  have : Fact (1 < romP521) := ⟨by decide +kernel⟩
  exact ⟨one_ne_zero, by ring, by ring, by ring⟩

theorem witness_Smul521Result :
    (14 : Reg).val ≤ 14 ∧ (∀ r, PointSrc.base = .reg r → r.val ≤ 14) ∧
    (∀ r, PointSrc.reg 14 = .reg r → r.val ≤ 14) := by decide

theorem witness_EdsmulCtResult :
    (12 : Reg).val ≤ 12 ∧ (∀ r, PointSrc.base = .reg r → r.val ≤ 12) ∧
    (∀ r, PointSrc.reg 12 = .reg r → r.val ≤ 12) := by decide

theorem witness_EdsmulVtEqualsEdsmulCt :
    (12 : Reg).val ≤ 12 ∧ (∀ r, PointSrc.base = .reg r → r.val ≤ 12) ∧
    (∀ r, PointSrc.reg 12 = .reg r → r.val ≤ 12) := by decide

/-- A field prime and a group order. -/
theorem witness_MulThenReduceIsMmul :
    (∃ t u v, exec (.mul .f25519 2 0 1) idle = .next t ∧ exec (.fred .f25519 4 2) t = .next u ∧
      exec (.mmul .f25519 4 0 1) idle = .next v) ∧
    (∃ t u v, exec (.mul .q521 14 0 1) idle = .next t ∧ exec (.bred .q521 4 14) t = .next u ∧
      exec (.mmul .q521 4 0 1) idle = .next v) :=
  ⟨⟨_, _, _, rfl, rfl, rfl⟩, ⟨_, _, _, rfl, rfl, rfl⟩⟩

theorem witness_AddThenRquickIsMadd :
    (loaded .b32 [(0, romP25519 - 1), (1, 5)]).src .f25519 0 < modulus .f25519 ∧
    (loaded .b32 [(0, romP25519 - 1), (1, 5)]).src .f25519 1 < modulus .f25519 ∧
    ∃ t u v, exec (.add .f25519 2 0 1) (loaded .b32 [(0, romP25519 - 1), (1, 5)]) = .next t ∧
      exec (.rquick .f25519 2 2) t = .next u ∧
      exec (.madd .f25519 2 0 1) (loaded .b32 [(0, romP25519 - 1), (1, 5)]) = .next v :=
  ⟨by decide +kernel, by decide +kernel, ⟨_, _, _, rfl, rfl, rfl⟩⟩

end Sys2Proof.Tests
end

section
/-! The effects of one step: `step_cases` carried through the bus operations. -/

namespace Sys2Proof.Machine

open Sys2Proof

/-! ## Which register an address names (20_memory.md R62, R63) -/

theorem locOf_id {a : Addr} (h : a.toNat / 4 = 0) : locOf a = .id := by
  simp [locOf_low (a := a) (by omega), h]

theorem locOf_param {a : Addr} (h : a.toNat / 4 = 1) : locOf a = .param := by
  simp [locOf_low (a := a) (by omega), h]

theorem locOf_ctrl {a : Addr} (h : a.toNat / 4 = 2) : locOf a = .ctrl := by
  simp [locOf_low (a := a) (by omega), h]

theorem locOf_status {a : Addr} (h : a.toNat / 4 = 3) : locOf a = .status := by
  simp [locOf_low (a := a) (by omega), h]

theorem locOf_cmd {a : Addr} (h : a.toNat / 4 = 4) : locOf a = .cmd := by
  simp [locOf_low (a := a) (by omega), h]

theorem busWrite_ctrl {s : State} {a : Addr} (v : Word) (h : a.toNat / 4 = 2) :
    s.busWrite a v = s.writeCtrl v := by
  simp [State.busWrite, locOf_ctrl h]

theorem busWrite_status {s : State} {a : Addr} (v : Word) (h : a.toNat / 4 = 3) :
    s.busWrite a v = s.writeStatus v := by
  simp [State.busWrite, locOf_status h]

theorem busWrite_cmd {s : State} {a : Addr} (v : Word) (h : a.toNat / 4 = 4) :
    s.busWrite a v = s.issue v := by
  simp [State.busWrite, locOf_cmd h]

/-- A bit of a bus word as a digit of its value. -/
theorem getLsbD_eq_decide (v : Word) (i : Nat) :
    v.getLsbD i = decide (v.toNat / 2 ^ i % 2 = 1) := by
  rw [BitVec.getLsbD, Nat.testBit_eq_decide_div_mod_eq]

/-! ## What a step does -/

/-- The host's next action is a reset: the reset input, or a write of SRST to CTRL (10_state.md R26,
70_reset_and_hazards.md R320). -/
def State.ResetAsked (s : State) : Prop :=
  s.agenda.head? = some .resetPin ∨
    ∃ a v, s.agenda.head? = some (.write a v) ∧ a.toNat / 4 = 2 ∧ v.toNat % 2 = 1

/-- A reset request is one of any wider list of the host's actions that names SRST. -/
theorem State.ResetAsked.or_write {s : State} (h : s.ResetAsked) (P : Addr → Word → Prop) :
    s.agenda.head? = some .resetPin ∨
      ∃ a v, s.agenda.head? = some (.write a v) ∧ ((a.toNat / 4 = 2 ∧ v.toNat % 2 = 1) ∨ P a v) :=
  h.imp_right fun ⟨a, v, hw, hsrst⟩ => ⟨a, v, hw, .inl hsrst⟩

/-- Everything one step of the machine can do to `s`: the block's action, on `s` with the outside
world's fields moved on. -/
inductive StepEffect (s : State) : State → Prop
  /-- the command in flight completes (10_state.md R42) -/
  | complete (r : Result) (ready : s.engineReady = true) : StepEffect s (s.complete r)
  /-- a reset from either source (R320, R321) -/
  | reset (ag : List HostEvent) (asked : s.ResetAsked) :
      StepEffect s { s with agenda := ag }.doReset
  /-- a write to CTRL without SRST (R26) -/
  | setIrqEn (ag : List HostEvent) (b : Bool) : StepEffect s { s with agenda := ag, irqEn := b }
  /-- a write to STATUS (R25) -/
  | writeStatus (ag : List HostEvent) (a : Addr) (v : Word)
      (head : s.agenda.head? = some (.write a v)) (addr : a.toNat / 4 = 3) :
      StepEffect s ({ s with agenda := ag }.writeStatus v)
  /-- a write dropped while BUSY (60_exceptions.md R290) -/
  | raise (ag : List HostEvent) (e : ErrCode) (busy : s.status.busy = true) :
      StepEffect s ({ s with agenda := ag }.raise e)
  /-- a write to CMD of a word that fails its check (R289) -/
  | reject (ag : List HostEvent) (a : Addr) (v : Word) (e : ErrCode)
      (head : s.agenda.head? = some (.write a v)) (addr : a.toNat / 4 = 4)
      (idle : s.status.busy = false) :
      StepEffect s ({ s with agenda := ag, cmd := v }.raiseIssue e)
  /-- a write to CMD of a word that passes its check (R41) -/
  | accept (ag : List HostEvent) (a : Addr) (v : Word)
      (head : s.agenda.head? = some (.write a v)) (addr : a.toNat / 4 = 4)
      (idle : s.status.busy = false) (passes : check v = none) :
      StepEffect s ({ s with agenda := ag, cmd := v }.accept v)
  /-- a write to a data word of the window while IDLE (20_memory.md R67) -/
  | writeWindow (ag : List HostEvent) (a : Addr) (v : Word) (k : Reg) (j : Fin 18)
      (head : s.agenda.head? = some (.write a v)) (addr : a.toNat / 4 = 512 + 32 * k.val + j.val)
      (idle : s.status.busy = false) :
      StepEffect s { s with agenda := ag, x := s.x.set k.val (setWordOf (s.reg k) j v) k.isLt }
  /-- a cycle of the command in flight (R33, R330) -/
  | count (ag : List HostEvent) (ret : List Word) (f : InFlight) (flying : s.inflight = some f) :
      StepEffect s { s with agenda := ag, returned := ret,
                            inflight := some { f with cycles := f.cycles - 1 } }.work
  /-- the block is unchanged: a read, a write with no effect, an idle cycle (R71, R302) -/
  | stay (ag : List HostEvent) (ret : List Word) :
      StepEffect s { s with agenda := ag, returned := ret }

theorem tick_effect (s : State) (ag : List HostEvent) (ret : List Word) :
    StepEffect s { s with agenda := ag, returned := ret }.tick := by
  obtain h | ⟨f, -, hf, h⟩ := tick_cases { s with agenda := ag, returned := ret } <;> rw [h]
  · exact .stay ag ret
  · exact .count ag ret f hf

theorem busWrite_effect {s : State} {a : Addr} {v : Word}
    (ha : s.agenda.head? = some (.write a v)) (ag : List HostEvent) :
    StepEffect s ({ s with agenda := ag }.busWrite a v) := by
  obtain ⟨h, hw⟩ | ⟨h, hw⟩ | ⟨h, hw⟩ | ⟨k, j, h, hw⟩ | ⟨-, -, hw⟩ | ⟨-, hw⟩ :=
    busWrite_cases { s with agenda := ag } a v <;> rw [hw]
  · obtain ⟨h1, hc⟩ | ⟨-, hc⟩ := writeCtrl_cases { s with agenda := ag } v <;> rw [hc]
    · exact .reset ag (.inr ⟨a, v, ha, h, h1⟩)
    · exact .setIrqEn ag _
  · exact .writeStatus ag a v ha h
  · obtain ⟨hb, hi⟩ | ⟨hb, e, -, hi⟩ | ⟨hb, hc, hi⟩ := issue_cases { s with agenda := ag } v <;>
      rw [hi]
    · exact .raise ag _ hb
    · exact .reject ag a v e ha h hb
    · exact .accept ag a v ha h hb hc
  · cases hb : s.status.busy with
    | true =>
      rw [writeWindow_busy (s := { s with agenda := ag }) k j v hb]
      exact .raise ag _ hb
    | false =>
      rw [writeWindow_idle (s := { s with agenda := ag }) k j v hb]
      exact .writeWindow ag a v k j ha h hb
  · unfold State.writeWindowReserved
    split
    next hb => exact .raise ag _ hb
    next => exact .stay ag _
  · exact .stay ag _

theorem hostStep_effect {s : State} {ev : HostEvent} {rest : List HostEvent}
    (ha : s.agenda = ev :: rest) : StepEffect s (s.hostStep ev rest) := by
  have hhead : s.agenda.head? = some ev := by rw [ha]; rfl
  cases ev with
  | read a => exact .stay rest _
  | write a v => exact busWrite_effect hhead rest
  | resetPin => exact .reset rest (.inl hhead)
  | cycle => exact tick_effect s rest _
  | wait =>
    simp only [State.hostStep]
    split
    · exact tick_effect s _ _
    · exact .stay rest _

/-- Every step has one of these effects. -/
theorem step_effect {s t : State} (h : step s = .next t) : StepEffect s t := by
  obtain ⟨hr, -, r, -, -, rfl⟩ | ⟨-, -, rfl⟩ | ⟨-, ev, rest, ha, rfl⟩ := step_cases h
  · exact .complete r hr
  · exact tick_effect s _ _
  · exact hostStep_effect ha

end Sys2Proof.Machine
end

section
/-! The invariant `State.Inv`: each operation keeps it, so every step does. -/

namespace Sys2Proof.Machine

open Sys2Proof

/-! ## ERRCODE (60_exceptions.md R280, R288) -/

theorem errorCode_le (e : ErrCode) : (errorCode e).toNat ≤ 6 := by cases e <;> decide

theorem errorCode_ne_zero (e : ErrCode) : errorCode e ≠ 0 := by cases e <;> decide

/-- The first code is kept, and a new one is a code of an error (R288). -/
theorem errcodeOk_raise {s : State} (h : s.ErrcodeOk) (e : ErrCode) : (s.raise e).ErrcodeOk := by
  obtain ⟨hle, hiff⟩ := h
  cases herr : s.status.err with
  | true => exact ⟨by simpa [herr] using hle, by simpa [herr] using hiff⟩
  | false => exact ⟨by simpa [herr] using errorCode_le e, by simpa [herr] using errorCode_ne_zero e⟩

theorem errcodeOk_writeStatus {s : State} (h : s.ErrcodeOk) (v : Word) :
    (s.writeStatus v).ErrcodeOk := by
  cases hv : v[2] with
  | true => simp [State.ErrcodeOk, hv]
  | false => simpa [State.ErrcodeOk, hv] using h

theorem errcodeOk_complete {s : State} (h : s.ErrcodeOk) (r : Result) :
    (s.complete r).ErrcodeOk := by
  simpa [State.ErrcodeOk] using h

theorem errcodeOk_cleared {s : State} (h : s.status = Status.cleared) : s.ErrcodeOk := by
  rw [State.ErrcodeOk, h]; decide

/-! ## The invariant, operation by operation -/

/-- An idle state meets the invariant when it has no record, clean working storage and a code that
agrees with ERR. -/
theorem inv_of_idle {s : State} (hb : s.status.busy = false) (hf : s.inflight = none)
    (hh : s.hidden = Hidden.zeroed) (he : s.ErrcodeOk) : s.Inv :=
  ⟨by simp [State.BusyIsInFlight, hb, hf], by simp [State.RecordIsCmd, hf], fun _ => hh,
    fun hbusy => by simp [hb] at hbusy, he⟩

/-- An idle state that meets the invariant has no record and clean working storage. -/
theorem State.Inv.idle {s : State} (h : s.Inv) (hb : s.status.busy = false) :
    s.inflight = none ∧ s.hidden = Hidden.zeroed := by
  obtain ⟨hflight, -, hclean, -, -⟩ := h
  exact ⟨by simpa [hb] using hflight.symm, hclean hb⟩

theorem State.Inv.errcodeOk {s : State} (h : s.Inv) : s.ErrcodeOk := h.2.2.2.2

theorem inv_reset : State.reset.Inv := inv_of_idle rfl rfl rfl (errcodeOk_cleared rfl)

theorem inv_doReset (s : State) : s.doReset.Inv := inv_of_idle rfl rfl rfl (errcodeOk_cleared rfl)

theorem inv_complete {s : State} (h : s.Inv) (r : Result) : (s.complete r).Inv :=
  inv_of_idle rfl rfl rfl (errcodeOk_complete h.errcodeOk r)

theorem inv_writeStatus {s : State} (h : s.Inv) (v : Word) : (s.writeStatus v).Inv := by
  obtain ⟨hflight, hrec, hclean, hdone, herr⟩ := h
  exact ⟨hflight, hrec, hclean, fun hb => by simp [hdone hb], errcodeOk_writeStatus herr v⟩

theorem inv_raise {s : State} (h : s.Inv) (e : ErrCode) : (s.raise e).Inv := by
  obtain ⟨hflight, hrec, hclean, hdone, herr⟩ := h
  exact ⟨hflight, hrec, hclean, hdone, errcodeOk_raise herr e⟩

/-- A rejected command leaves the block idle (R289). -/
theorem inv_raiseIssue {s : State} (h : s.Inv) (hb : s.status.busy = false) (v : Word)
    (e : ErrCode) : ({ s with cmd := v }.raiseIssue e).Inv :=
  inv_of_idle hb (h.idle hb).1 (h.idle hb).2 (errcodeOk_raise h.errcodeOk e)

/-- An accepted command is in flight with `LAT` cycles to run (R41). -/
theorem inv_accept {s : State} (h : s.Inv) {v : Word} (hc : check v = none) :
    ({ s with cmd := v }.accept v).Inv := by
  refine ⟨rfl, fun f hf => ?_, fun hb => by simp at hb, fun _ => rfl, h.errcodeOk⟩
  obtain rfl := Option.some.inj hf
  exact ⟨rfl, hc, le_rfl⟩

/-- The operand file of an idle block is free (20_memory.md R67). -/
theorem inv_setOperands {s : State} (h : s.Inv) (hb : s.status.busy = false) (y : RegFile) :
    { s with x := y }.Inv :=
  inv_of_idle hb (h.idle hb).1 (h.idle hb).2 h.errcodeOk

/-- A cycle counts the record down, which stays within `LAT` (R33, R330). -/
theorem inv_count {s : State} (h : s.Inv) {f : InFlight} (hf : s.inflight = some f) :
    { s with inflight := some { f with cycles := f.cycles - 1 } }.work.Inv := by
  obtain ⟨hflight, hrec, -, hdone, herr⟩ := h
  have hb : s.status.busy = true := by simpa [State.BusyIsInFlight, hf] using hflight
  obtain ⟨hword, hcheck, hle⟩ := hrec f hf
  refine ⟨hb, fun g hg => ?_, fun hidle => ?_, hdone, herr⟩
  · obtain rfl := Option.some.inj hg
    exact ⟨hword, hcheck, le_trans (Nat.sub_le _ _) hle⟩
  · simp [hb] at hidle

/-- The invariant does not speak of CTRL or of the outside world's fields. -/
theorem State.Inv.outside {s : State} (h : s.Inv) (ag : List HostEvent) (ret : List Word)
    (b : Bool) : { s with agenda := ag, returned := ret, irqEn := b }.Inv := h

theorem StepEffect.inv {s t : State} (he : StepEffect s t) (h : s.Inv) : t.Inv := by
  have hs := fun ag => h.outside ag s.returned s.irqEn
  cases he with
  | complete r _ => exact inv_complete h r
  | reset ag _ => exact inv_doReset _
  | setIrqEn ag b => exact h.outside ag _ b
  | writeStatus ag a v _ _ => exact inv_writeStatus (hs ag) v
  | raise ag e _ => exact inv_raise (hs ag) e
  | reject ag a v e _ _ hb => exact inv_raiseIssue (hs ag) hb v e
  | accept ag a v _ _ _ hc => exact inv_accept (hs ag) hc
  | writeWindow ag a v k j _ _ hb => exact inv_setOperands (hs ag) hb _
  | count ag ret f hf => exact inv_count (h.outside ag ret _) hf
  | stay ag ret => exact h.outside ag ret _

/-- Settles O12: each effect of a step keeps the invariant. -/
theorem stepKeepsSoundness : Obligations.StepKeepsSoundness :=
  fun _ _ h hstep => (step_effect hstep).inv h

/-- Settles O9: the reset state is idle and clean. -/
theorem resetIsSound : Obligations.ResetIsSound := inv_reset

end Sys2Proof.Machine
end

section
/-! What can change BUSY, ERR, the operand registers and CMD: one field of every effect of a step. -/

namespace Sys2Proof.Machine

open Sys2Proof

/-- BUSY falls by a completion or a reset, and by nothing else (10_state.md R40). -/
theorem StepEffect.busy_falls {s t : State} (he : StepEffect s t) (hs : s.status.busy = true)
    (ht : t.status.busy = false) : s.engineReady = true ∨ s.ResetAsked := by
  cases he with
  | complete r hready => exact .inl hready
  | reset ag hreset => exact .inr hreset
  | reject _ _ _ _ _ _ hidle | accept _ _ _ _ _ hidle | writeWindow _ _ _ _ _ _ _ hidle =>
    simp [hs] at hidle
  | setIrqEn | writeStatus | raise | count | stay => simp [hs] at ht

/-- BUSY rises by an accepted write to CMD, and by nothing else (R41). -/
theorem StepEffect.busy_rises {s t : State} (he : StepEffect s t) (hs : s.status.busy = false)
    (ht : t.status.busy = true) :
    ∃ a v, s.agenda.head? = some (.write a v) ∧ a.toNat / 4 = 4 ∧ check v = none := by
  cases he with
  | accept ag a v head addr _ passes => exact ⟨a, v, head, addr, passes⟩
  | reset => simp [Status.cleared] at ht
  | complete | setIrqEn | writeStatus | raise | reject | writeWindow | count | stay => simp [hs] at ht

/-- Settles O16, by the effects that change BUSY. -/
theorem busyChangesOnlyByIssueCompletionReset :
    Obligations.BusyChangesOnlyByIssueCompletionReset :=
  fun _ _ h => ⟨(step_effect h).busy_falls, (step_effect h).busy_rises⟩

/-- ERR falls by a reset, or by a write of STATUS bit 2, which clears ERRCODE too (R25, R30). -/
theorem StepEffect.err_falls {s t : State} (he : StepEffect s t) (hs : s.status.err = true)
    (ht : t.status.err = false) :
    t.status.errcode = 0 ∧ (s.ResetAsked ∨ ∃ a v, s.agenda.head? = some (.write a v) ∧
      a.toNat / 4 = 3 ∧ v.toNat / 4 % 2 = 1) := by
  cases he with
  | reset ag hreset => exact ⟨rfl, .inl hreset⟩
  | writeStatus ag a v head addr =>
    have hv : v.getLsbD 2 = true := by simpa [hs] using ht
    refine ⟨if_pos hv, .inr ⟨a, v, head, addr, ?_⟩⟩
    exact of_decide_eq_true (getLsbD_eq_decide v 2 ▸ hv)
  | complete | setIrqEn | raise | reject | accept | writeWindow | count | stay => simp [hs] at ht

/-- While ERR stays 1, no effect changes ERRCODE (60_exceptions.md R288). -/
theorem StepEffect.errcode_kept {s t : State} (he : StepEffect s t) (hs : s.status.err = true)
    (ht : t.status.err = true) : t.status.errcode = s.status.errcode := by
  cases he with
  | reset => simp [Status.cleared] at ht
  | writeStatus ag a v head addr =>
    have hv : v[2] = false := by simpa [hs] using ht
    simp [hv]
  | raise | reject => simp [hs]
  | complete => simp
  | setIrqEn | accept | writeWindow | count | stay => rfl

/-- Settles O17, by the effects that change ERR or ERRCODE. -/
theorem errClearedOnlyByHostOrReset : Obligations.ErrClearedOnlyByHostOrReset := by
  intro s t h hs
  refine ⟨fun ht => ?_, (step_effect h).errcode_kept hs⟩
  obtain ⟨hcode, hreset | ⟨a, v, hw, ha, hv⟩⟩ := (step_effect h).err_falls hs ht
  · exact ⟨hcode, hreset.or_write _⟩
  · exact ⟨hcode, .inr ⟨a, v, hw, .inr ⟨ha, hv⟩⟩⟩

/-- Settles O18, by the effects that change the operand file. -/
theorem operandsChangeOnlyByCompletionIdleWriteReset :
    Obligations.OperandsChangeOnlyByCompletionIdleWriteReset := by
  intro s t r h hne
  cases step_effect h with
  | complete _ hready => exact .inl hready
  | reset _ hreset => exact .inr (hreset.or_write _)
  | writeWindow ag a v k j head addr hidle =>
    have hrk : r = k := by
      by_contra hr
      have hkept := reg_writeWindow_ne (s := { s with agenda := ag }) j v hr
      rw [writeWindow_idle (s := { s with agenda := ag }) k j v hidle] at hkept
      exact hne hkept
    exact .inr (.inr ⟨a, v, head, .inr ⟨hidle, j, hrk ▸ addr⟩⟩)
  | setIrqEn | writeStatus | raise | reject | accept | count | stay => exact absurd rfl hne

/-- CMD takes the word of a write to it while IDLE, or 0 at a reset (R24, R286). -/
theorem StepEffect.cmd_changes {s t : State} (he : StepEffect s t) (hne : t.cmd ≠ s.cmd) :
    s.ResetAsked ∨ ∃ a v, s.agenda.head? = some (.write a v) ∧
      a.toNat / 4 = 4 ∧ s.status.busy = false ∧ t.cmd = v := by
  cases he with
  | reset _ hreset => exact .inl hreset
  | reject _ a v _ head addr hidle | accept _ a v head addr hidle =>
    exact .inr ⟨a, v, head, addr, hidle, rfl⟩
  | complete | setIrqEn | writeStatus | raise | writeWindow | count | stay => exact absurd rfl hne

/-- The parameters are hardwired (R28). -/
theorem StepEffect.params_kept {s t : State} (he : StepEffect s t) : t.params = s.params := by
  cases he with
  | complete | reset | setIrqEn | writeStatus | raise | reject | accept | writeWindow | count
  | stay => rfl

/-- Settles O19, by the effects that change CMD. -/
theorem cmdHoldsTheLastIdleWrite : Obligations.CmdHoldsTheLastIdleWrite := by
  intro s t h
  refine ⟨fun hne => ?_, (step_effect h).params_kept⟩
  obtain hreset | ⟨a, v, hw, hcmd⟩ := (step_effect h).cmd_changes hne
  · exact hreset.or_write _
  · exact .inr ⟨a, v, hw, .inr hcmd⟩

end Sys2Proof.Machine
end

section
/-! The hidden working storage is never read: every operation commutes with replacing it
(10_state.md R34, 60_exceptions.md R301). -/

namespace Sys2Proof.Machine

open Sys2Proof

/-- `t'` is `t` but for the working storage. -/
def State.AgreesButHidden (t' t : State) : Prop := ∃ h, t' = { t with hidden := h }

theorem State.AgreesButHidden.refl (t : State) : t.AgreesButHidden t := ⟨t.hidden, rfl⟩

/-- A completion reads the operands and the parameters only (R42), and zeroizes the storage. -/
theorem exec_setHidden (i : Instr) (s : State) (h : Hidden) :
    exec i { s with hidden := h } = exec i s := by
  obtain ⟨R, hR⟩ := exec_reads_operands i
  rw [hR, hR]; rfl

theorem engineStep_setHidden (s : State) (h : Hidden) :
    { s with hidden := h }.engineStep = s.engineStep := by
  simp only [State.engineStep, exec_setHidden]

theorem raise_setHidden (s : State) (h : Hidden) (e : ErrCode) :
    ({ s with hidden := h }.raise e).AgreesButHidden (s.raise e) := ⟨h, rfl⟩

/-- A running command draws its working storage from CMD and the operands, not from the old one. -/
theorem tick_setHidden (s : State) (h : Hidden) :
    ({ s with hidden := h }.tick).AgreesButHidden s.tick := by
  unfold State.tick
  dsimp only
  split
  · exact .refl _
  · exact ⟨h, rfl⟩

theorem writeCtrl_setHidden (s : State) (h : Hidden) (v : Word) :
    ({ s with hidden := h }.writeCtrl v).AgreesButHidden (s.writeCtrl v) := by
  unfold State.writeCtrl
  split
  · exact .refl _
  · exact ⟨h, rfl⟩

theorem issue_setHidden (s : State) (h : Hidden) (v : Word) :
    ({ s with hidden := h }.issue v).AgreesButHidden (s.issue v) := by
  obtain ⟨hb, hi⟩ | ⟨hb, e, hc, hi⟩ | ⟨hb, hc, hi⟩ := issue_cases s v <;> rw [hi]
  · rw [issue_busy (s := { s with hidden := h }) v hb]
    exact raise_setHidden s h _
  · rw [issue_rejected (s := { s with hidden := h }) hb hc]
    exact ⟨h, rfl⟩
  · rw [issue_accepted (s := { s with hidden := h }) hb hc]
    exact .refl _

theorem writeWindow_setHidden (s : State) (h : Hidden) (k : Reg) (j : Fin 18) (v : Word) :
    ({ s with hidden := h }.writeWindow k j v).AgreesButHidden (s.writeWindow k j v) := by
  unfold State.writeWindow
  split <;> exact ⟨h, rfl⟩

theorem writeWindowReserved_setHidden (s : State) (h : Hidden) :
    { s with hidden := h }.writeWindowReserved.AgreesButHidden s.writeWindowReserved := by
  unfold State.writeWindowReserved
  split <;> exact ⟨h, rfl⟩

theorem busWrite_setHidden (s : State) (h : Hidden) (a : Addr) (v : Word) :
    ({ s with hidden := h }.busWrite a v).AgreesButHidden (s.busWrite a v) := by
  unfold State.busWrite
  cases locOf a with
  | id | param | reserved => exact ⟨h, rfl⟩
  | ctrl => exact writeCtrl_setHidden s h v
  | status => exact ⟨h, rfl⟩
  | cmd => exact issue_setHidden s h v
  | window k j => exact writeWindow_setHidden s h k j v
  | windowReserved k => exact writeWindowReserved_setHidden s h

theorem hostStep_setHidden (s : State) (h : Hidden) (ev : HostEvent) (rest : List HostEvent) :
    ({ s with hidden := h }.hostStep ev rest).AgreesButHidden (s.hostStep ev rest) := by
  cases ev with
  | read a => exact ⟨h, rfl⟩
  | write a v => exact busWrite_setHidden { s with agenda := rest } h a v
  | resetPin => exact .refl _
  | cycle => exact tick_setHidden { s with agenda := rest } h
  | wait =>
    unfold State.hostStep
    dsimp only
    split
    · exact tick_setHidden (s.hostRead statusAddr) h
    · exact ⟨h, rfl⟩

theorem worldStep_setHidden (s : State) (h : Hidden) :
    { s with hidden := h }.worldStep.AgreesButHidden s.worldStep := by
  unfold State.worldStep
  dsimp only
  split
  · exact tick_setHidden s h
  · exact hostStep_setHidden s h _ _

/-- Settles O20: whether the engine is ready does not depend on the storage, the engine's step is the
same, and the world's step agrees but for the storage. -/
theorem workingStorageIsNeverRead : Obligations.WorkingStorageIsNeverRead := by
  intro s t h hstep
  cases hr : s.engineReady with
  | true =>
    rw [step_of_ready hr] at hstep
    have hr' : { s with hidden := h }.engineReady = true := hr
    exact ⟨t.hidden, by rw [step_of_ready hr', engineStep_setHidden, hstep]⟩
  | false =>
    rw [step_of_not_ready hr] at hstep
    cases hstep
    obtain ⟨h', hh'⟩ := worldStep_setHidden s h
    have hr' : { s with hidden := h }.engineReady = false := hr
    exact ⟨h', by rw [step_of_not_ready hr', hh']⟩

end Sys2Proof.Machine
end

section
/-! The control registers on the bus: what they read as, what a write to each does, and `irq`. -/

namespace Sys2Proof.Machine

open Sys2Proof

/-! ## The computed words as numbers (10_state.md R25, R26, R28) -/

/-- Concatenation as arithmetic: the high part counts `2^n`. -/
theorem toNat_append_eq_add {m n : Nat} (x : BitVec m) (y : BitVec n) :
    (x ++ y).toNat = x.toNat * 2 ^ n + y.toNat := by
  rw [BitVec.toNat_append, ← Nat.shiftLeft_add_eq_or_of_lt y.isLt, Nat.shiftLeft_eq]

theorem paramWord_toNat (s : State) : s.paramWord.toNat =
    s.params.limbBits.toNat + 2 ^ 8 * 16 + 2 ^ 16 * s.params.limbBits.w521 := by
  unfold State.paramWord
  cases s.params.limbBits <;> decide

theorem ctrlWord_toNat (s : State) : s.ctrlWord.toNat = 2 * s.irqEn.toNat := by
  unfold State.ctrlWord
  cases s.irqEn <;> decide

theorem status_toWord_toNat (st : Status) : st.toWord.toNat =
    st.busy.toNat + 2 * st.done.toNat + 4 * st.err.toNat + 8 * st.carry.toNat +
      16 * st.valid.toNat + 32 * st.zero.toNat + 2 ^ 8 * st.errcode.toNat := by
  simp only [Status.toWord, toNat_append_eq_add, BitVec.toNat_ofBool, BitVec.toNat_ofNat]
  omega

/-- Settles O21: the address map, then each register's word. -/
theorem controlRegistersRead : Obligations.ControlRegistersRead := by
  intro s a
  refine ⟨fun h => ?_, fun h => ?_, fun h => ?_, fun h => ?_, fun h => ?_⟩
  · rw [State.busRead, locOf_id h]; rfl
  · rw [State.busRead, locOf_param h]; exact paramWord_toNat s
  · rw [State.busRead, locOf_ctrl h]; exact ctrlWord_toNat s
  · rw [State.busRead, locOf_status h]; exact status_toWord_toNat s.status
  · rw [State.busRead, locOf_cmd h]

/-! ## Writes -/

/-- Settles O27: a word that decodes passes its check, and the write is an `accept`. -/
theorem acceptedCommandGoesInFlight : Obligations.AcceptedCommandGoesInFlight := by
  intro s a v i hidle ha hdec
  have hc : check v = none := (check_eq_none_iff v).mpr ⟨i, hdec⟩
  rw [busWrite_cmd v ha, issue_accepted hidle hc]
  exact ⟨_, _, rfl⟩

/-- Settles O28: the write is a `writeStatus`, whose two bits are the word's digits. -/
theorem statusWriteOneToClear : Obligations.StatusWriteOneToClear := by
  intro s a v ha
  rw [busWrite_status v ha, State.writeStatus, getLsbD_eq_decide, getLsbD_eq_decide]
  by_cases h1 : v.toNat / 2 % 2 = 1 <;> by_cases h2 : v.toNat / 4 % 2 = 1 <;> simp [h1, h2]

/-! ## irq (R32) -/

theorem irq_complete (s : State) (r : Result) : (s.complete r).irq = s.irqEn := by
  simp [State.irq]

theorem irq_writeStatus_clear {s : State} {v : Word} (h1 : v.getLsbD 1 = true)
    (h2 : v.getLsbD 2 = true) : (s.writeStatus v).irq = false := by
  rw [State.irq, State.writeStatus_status, h1, h2]
  simp

/-- Settles O31: a CTRL write without SRST sets IRQ_EN, on which `irq` depends as R32 says. -/
theorem interruptLine : Obligations.InterruptLine := by
  intro s a v ha hv
  have hw : s.busWrite a v = { s with irqEn := decide (v.toNat / 2 % 2 = 1) } := by
    obtain ⟨hsrst, -⟩ | ⟨-, hset⟩ := writeCtrl_cases s v
    · omega
    · rw [busWrite_ctrl v ha, hset, getLsbD_eq_decide, pow_one]
  refine ⟨hw, ?_, fun i t hexec => ?_, ?_⟩
  · rw [hw]; simp [State.irq]
  · obtain ⟨-, r, rfl⟩ := exec_next hexec
    exact irq_complete s r
  · rw [busWrite_status _ (by decide)]
    exact irq_writeStatus_clear (by decide) (by decide)

/-! ## Reset and the engine's step -/

/-- Settles O8: the fields of `State.reset`, and the words the bus shows of them. -/
theorem resetState : Obligations.ResetState := by
  refine ⟨State.reg_reset, rfl, by decide, by decide, rfl, rfl, rfl, rfl, ?_⟩
  rw [State.busRead, locOf_id (by decide)]; rfl

/-- Settles O14: the engine is ready, and its step is `exec` of the decoded word. -/
theorem stepRunsTheDecodedCommand : Obligations.StepRunsTheDecodedCommand := by
  intro s f i hb hf hc hd
  rw [step_of_ready ((engineReady_iff s).mpr ⟨hb, f, hf, hc⟩), State.engineStep, hd]

end Sys2Proof.Machine
end


section
/-! The memory map: the reserved offsets, the words of the window, and what a read leaves and shows. -/

namespace Sys2Proof.Machine

open Sys2Proof

/-! ## Reserved offsets (20_memory.md R64, R65) -/

theorem locOf_reserved {a : Addr} (h5 : 5 ≤ a.toNat / 4) (h : a.toNat / 4 < 512) :
    locOf a = .reserved := by
  obtain ⟨n, hn⟩ := Nat.exists_eq_add_of_le' h5
  have hl := locOf_low h
  rw [hn] at hl
  exact hl

theorem busRead_reserved (s : State) {a : Addr} (h5 : 5 ≤ a.toNat / 4) (h : a.toNat / 4 < 512) :
    s.busRead a = 0 := by
  rw [State.busRead, locOf_reserved h5 h]

theorem busRead_windowReserved (s : State) {a : Addr} (h : 512 ≤ a.toNat / 4)
    (h18 : 18 ≤ a.toNat / 4 % 32) : s.busRead a = 0 := by
  obtain ⟨k, hl⟩ := locOf_windowReserved h h18
  rw [State.busRead, hl]

/-- ID, PARAM and the reserved offsets below the window ignore writes, BUSY or not. -/
theorem busWrite_ignored (s : State) {a : Addr} (v : Word)
    (h : a.toNat / 4 < 2 ∨ (5 ≤ a.toNat / 4 ∧ a.toNat / 4 < 512)) : s.busWrite a v = s := by
  obtain ⟨h', -⟩ | ⟨h', -⟩ | ⟨h', -⟩ | ⟨k, j, h', -⟩ | ⟨h', -, -⟩ | ⟨-, hw⟩ := busWrite_cases s a v
  case inr.inr.inr.inr.inr => exact hw
  all_goals omega

theorem busWrite_windowReserved (s : State) {a : Addr} (v : Word) (h : 512 ≤ a.toNat / 4)
    (h18 : 18 ≤ a.toNat / 4 % 32) : s.busWrite a v = s.writeWindowReserved := by
  obtain ⟨k, hl⟩ := locOf_windowReserved h h18
  rw [State.busWrite, hl]

theorem writeWindowReserved_idle {s : State} (h : s.status.busy = false) :
    s.writeWindowReserved = s := by
  simp [State.writeWindowReserved, h]

/-- Settles O22: the reads and the ignored writes by the address map, a reserved word of the window by
what its write does while IDLE. -/
theorem reservedOffsetsReadZeroIgnoreWrites : Obligations.ReservedOffsetsReadZeroIgnoreWrites := by
  intro s a v
  refine ⟨?_, busWrite_ignored s v, fun h h18 hidle => ?_⟩
  · rintro (⟨h5, h⟩ | ⟨h, h18⟩)
    · exact busRead_reserved s h5 h
    · exact busRead_windowReserved s h h18
  · rw [busWrite_windowReserved s v h h18, writeWindowReserved_idle hidle]

/-! ## The words of the window (R65, R66, R67) -/

section
variable {a : Addr} {k : Reg} {j : Fin 18}

theorem busRead_window (s : State) (h : a.toNat / 4 = 512 + 32 * k.val + j.val) :
    s.busRead a = if s.status.busy then 0 else wordOf (s.reg k) j := by
  rw [State.busRead, locOf_window h]

theorem busWrite_window (s : State) (v : Word) (h : a.toNat / 4 = 512 + 32 * k.val + j.val) :
    s.busWrite a v = s.writeWindow k j v := by
  rw [State.busWrite, locOf_window h]

end

/-- Settles O23: the read is `wordOf` while IDLE, which is the digits of the register. -/
theorem windowReadsTheRegisterWord : Obligations.WindowReadsTheRegisterWord := by
  intro s a k j h
  rw [busRead_window s h]
  split
  · rfl
  · exact wordOf_toNat _ j

/-- Settles O24: the write is a `writeWindow`, which sets word `j` of `x[k]` by `setWordOf`. -/
theorem windowWriteReplacesOneWord : Obligations.WindowWriteReplacesOneWord := by
  intro s a k j v hidle h
  rw [busWrite_window s v h]
  refine ⟨_, writeWindow_idle k j v hidle, fun r hr => reg_writeWindow_ne j v hr, ?_,
    fun j' hj' => ?_⟩ <;> rw [reg_writeWindow_self k j v hidle, ← wordOf_toNat]
  · rw [wordOf_setWordOf_self]
  · rw [wordOf_setWordOf_ne _ v hj', wordOf_toNat]

/-! ## Reads (R66, R71) -/

/-- Settles O29: the step is the host's read, which moves the host's two fields only. -/
theorem readsHaveNoSideEffect : Obligations.ReadsHaveNoSideEffect := by
  intro s a rest hready hread
  rw [step_of_not_ready hready, worldStep_cons hread]
  rfl

/-- Settles O30: of the address map's eight cases only a data word of the window reads the operand
file, and it reads 0 while BUSY. -/
theorem busyReadsRevealNoOperand : Obligations.BusyReadsRevealNoOperand := by
  intro s y h a hbusy
  unfold State.busRead
  cases locOf a with
  | window k j => simp only [hbusy, if_true]
  | id | param | ctrl | status | cmd | reserved | windowReserved k => rfl

end Sys2Proof.Machine
end

section
/-! Decoding against encoding: the fields of a word that a command's mask keeps, the words that carry a
command, and the round trip (30_encoding.md R90, R98, R99, R101). -/

namespace Sys2Proof

/-! ## Words by their fields (R90) -/

/-- A word is its eight fields. -/
theorem eq_commandWord_iff (w : Word) (opc : BitVec 8) (msel : BitVec 2) (b : Bool)
    (rd rs1 rs2 : Reg) :
    w = commandWord opc msel b rd rs1 rs2 ↔
      fieldOpc w = opc ∧ fieldReserved11 w = false ∧ fieldReservedTop w = 0 ∧ fieldB w = b ∧
        fieldMsel w = msel ∧ fieldRd w = rd ∧ fieldRs1 w = rs1 ∧ fieldRs2 w = rs2 := by
  constructor
  · rintro rfl
    exact ⟨fieldOpc_commandWord .., fieldReserved11_commandWord .., fieldReservedTop_commandWord ..,
      fieldB_commandWord .., fieldMsel_commandWord .., fieldRd_commandWord ..,
      fieldRs1_commandWord .., fieldRs2_commandWord ..⟩
  · rintro ⟨rfl, h11, htop, rfl, rfl, rfl, rfl, rfl⟩
    have htop' : w.toNat / 2 ^ 24 = 0 := by rw [← fieldReservedTop_toNat, htop]; rfl
    have hb : (fieldB w).toNat = w.toNat / 2 ^ 10 % 2 := by
      rw [fieldB_eq]
      rcases Nat.mod_two_eq_zero_or_one (w.toNat / 2 ^ 10) with h | h <;> rw [h] <;> rfl
    rw [fieldReserved11_eq, decide_eq_false_iff_not] at h11
    apply BitVec.eq_of_toNat_eq
    rw [commandWord_toNat, fieldOpc_toNat, fieldMsel_toNat, hb, fieldRd_val, fieldRs1_val,
      fieldRs2_val]
    omega

/-! ## The fields of a masked word (R98) -/

theorem fieldOpc_and (w m : Word) : fieldOpc (w &&& m) = fieldOpc w &&& fieldOpc m :=
  BitVec.extractLsb'_and

theorem fieldMsel_and (w m : Word) : fieldMsel (w &&& m) = fieldMsel w &&& fieldMsel m :=
  BitVec.extractLsb'_and

theorem fieldReservedTop_and (w m : Word) :
    fieldReservedTop (w &&& m) = fieldReservedTop w &&& fieldReservedTop m :=
  BitVec.extractLsb'_and

theorem fieldB_and (w m : Word) : fieldB (w &&& m) = (fieldB w && fieldB m) :=
  BitVec.getLsbD_and

theorem fieldReserved11_and (w m : Word) :
    fieldReserved11 (w &&& m) = (fieldReserved11 w && fieldReserved11 m) :=
  BitVec.getLsbD_and

theorem fieldRd_and (w m : Word) :
    fieldRd (w &&& m) = (BitVec.ofFin (w := 4) (fieldRd w) &&& BitVec.ofFin (fieldRd m)).toFin :=
  congrArg BitVec.toFin BitVec.extractLsb'_and

theorem fieldRs1_and (w m : Word) :
    fieldRs1 (w &&& m) = (BitVec.ofFin (w := 4) (fieldRs1 w) &&& BitVec.ofFin (fieldRs1 m)).toFin :=
  congrArg BitVec.toFin BitVec.extractLsb'_and

theorem fieldRs2_and (w m : Word) :
    fieldRs2 (w &&& m) = (BitVec.ofFin (w := 4) (fieldRs2 w) &&& BitVec.ofFin (fieldRs2 m)).toFin :=
  congrArg BitVec.toFin BitVec.extractLsb'_and

/-- When a masked word is the word of given fields: field by field. -/
theorem and_eq_commandWord_iff (w m : Word) (opc : BitVec 8) (msel : BitVec 2) (b : Bool)
    (rd rs1 rs2 : Reg) :
    w &&& m = commandWord opc msel b rd rs1 rs2 ↔
      fieldOpc w &&& fieldOpc m = opc ∧ (fieldReserved11 w && fieldReserved11 m) = false ∧
        fieldReservedTop w &&& fieldReservedTop m = 0 ∧ (fieldB w && fieldB m) = b ∧
        fieldMsel w &&& fieldMsel m = msel ∧
        (BitVec.ofFin (w := 4) (fieldRd w) &&& BitVec.ofFin (fieldRd m)).toFin = rd ∧
        (BitVec.ofFin (w := 4) (fieldRs1 w) &&& BitVec.ofFin (fieldRs1 m)).toFin = rs1 ∧
        (BitVec.ofFin (w := 4) (fieldRs2 w) &&& BitVec.ofFin (fieldRs2 m)).toFin = rs2 := by
  rw [eq_commandWord_iff, fieldOpc_and, fieldReserved11_and, fieldReservedTop_and, fieldB_and,
    fieldMsel_and, fieldRd_and, fieldRs1_and, fieldRs2_and]

/-! ## The fields as operands (R91, R92) -/

theorem code_f25519 : Msel.f25519.code = 0 := rfl

theorem code_f521 : Msel.f521.code = 2 := rfl

theorem ofBits_eq_iff (b : BitVec 2) (m : Msel) : Msel.ofBits b = m ↔ b = m.code :=
  ⟨fun h => h ▸ (code_ofBits b).symm, fun h => h ▸ ofBits_code m⟩

theorem pointSrcOf_eq_base_iff (w : Word) : pointSrcOf w = .base ↔ fieldB w = true := by
  unfold pointSrcOf; cases fieldB w <;> simp

theorem pointSrcOf_eq_reg_iff (w : Word) (r : Reg) :
    pointSrcOf w = .reg r ↔ fieldB w = false ∧ fieldRs2 w = r := by
  unfold pointSrcOf; cases fieldB w <;> simp

theorem pointSrcOf_commandWord (opc : BitVec 8) (msel : BitVec 2) (rd rs1 : Reg) (p : PointSrc) :
    pointSrcOf (commandWord opc msel p.bBit rd rs1 p.rs2) = p := by
  rw [pointSrcOf, fieldB_commandWord, fieldRs2_commandWord]
  cases p <;> rfl

/-! ## The three masks (R98, R99) -/

theorem toFin_zero_reg : (0#4).toFin = (0 : Reg) := rfl

/-- The mask of a command that ignores RS2 keeps the other fields whole. -/
theorem fields_rs2Mask :
    fieldOpc 0xFF0FFFFF = BitVec.allOnes 8 ∧ fieldReserved11 0xFF0FFFFF = true ∧
      fieldReservedTop 0xFF0FFFFF = BitVec.allOnes 8 ∧ fieldB 0xFF0FFFFF = true ∧
      fieldMsel 0xFF0FFFFF = BitVec.allOnes 2 ∧
      BitVec.ofFin (w := 4) (fieldRd 0xFF0FFFFF) = BitVec.allOnes 4 ∧
      BitVec.ofFin (w := 4) (fieldRs1 0xFF0FFFFF) = BitVec.allOnes 4 ∧
      BitVec.ofFin (w := 4) (fieldRs2 0xFF0FFFFF) = 0#4 := by decide

/-- The mask of NOP keeps OPC, B and the reserved bits. -/
theorem fields_nopMask :
    fieldOpc 0xFF000CFF = BitVec.allOnes 8 ∧ fieldReserved11 0xFF000CFF = true ∧
      fieldReservedTop 0xFF000CFF = BitVec.allOnes 8 ∧ fieldB 0xFF000CFF = true ∧
      fieldMsel 0xFF000CFF = 0#2 ∧
      BitVec.ofFin (w := 4) (fieldRd 0xFF000CFF) = 0#4 ∧
      BitVec.ofFin (w := 4) (fieldRs1 0xFF000CFF) = 0#4 ∧
      BitVec.ofFin (w := 4) (fieldRs2 0xFF000CFF) = 0#4 := by decide

section
variable (w : Word) (opc : BitVec 8) (msel : BitVec 2) (b : Bool) (rd rs1 rs2 : Reg) (p : PointSrc)

theorem and_fullMask_eq_commandWord_iff :
    w &&& 0xFFFFFFFF = commandWord opc msel b rd rs1 rs2 ↔
      fieldOpc w = opc ∧ fieldReserved11 w = false ∧ fieldReservedTop w = 0 ∧ fieldB w = b ∧
        fieldMsel w = msel ∧ fieldRd w = rd ∧ fieldRs1 w = rs1 ∧ fieldRs2 w = rs2 := by
  rw [show (0xFFFFFFFF : Word) = BitVec.allOnes 32 from rfl, BitVec.and_allOnes, eq_commandWord_iff]

theorem and_rs2Mask_eq_commandWord_iff :
    w &&& 0xFF0FFFFF = commandWord opc msel b rd rs1 0 ↔
      fieldOpc w = opc ∧ fieldReserved11 w = false ∧ fieldReservedTop w = 0 ∧ fieldB w = b ∧
        fieldMsel w = msel ∧ fieldRd w = rd ∧ fieldRs1 w = rs1 := by
  obtain ⟨hopc, h11, htop, hb, hmsel, hrd, hrs1, hrs2⟩ := fields_rs2Mask
  rw [and_eq_commandWord_iff, hopc, h11, htop, hb, hmsel, hrd, hrs1, hrs2]
  simp only [BitVec.and_allOnes, BitVec.and_zero, toFin_zero_reg, Bool.and_true, and_true]

theorem and_nopMask_eq_commandWord_iff :
    w &&& 0xFF000CFF = commandWord opc 0 b 0 0 0 ↔
      fieldOpc w = opc ∧ fieldReserved11 w = false ∧ fieldReservedTop w = 0 ∧ fieldB w = b := by
  obtain ⟨hopc, h11, htop, hb, hmsel, hrd, hrs1, hrs2⟩ := fields_nopMask
  rw [and_eq_commandWord_iff, hopc, h11, htop, hb, hmsel, hrd, hrs1, hrs2]
  simp only [BitVec.and_allOnes, BitVec.and_zero, BitVec.ofNat_eq_ofNat, toFin_zero_reg, Bool.and_true,
    and_true]

/-- RS2 is ignored exactly when B selects the base point (R91). -/
theorem and_pointMask_eq_commandWord_iff :
    (w &&& if p.bBit then 0xFF0FFFFF else 0xFFFFFFFF) = commandWord opc msel p.bBit rd rs1 p.rs2 ↔
      fieldOpc w = opc ∧ fieldReserved11 w = false ∧ fieldReservedTop w = 0 ∧ fieldMsel w = msel ∧
        fieldRd w = rd ∧ fieldRs1 w = rs1 ∧ pointSrcOf w = p := by
  cases p with
  | base =>
    rw [pointSrcOf_eq_base_iff, PointSrc.bBit, if_pos rfl, PointSrc.rs2,
      and_rs2Mask_eq_commandWord_iff]
    tauto
  | reg r =>
    rw [pointSrcOf_eq_reg_iff, PointSrc.bBit, if_neg Bool.false_ne_true, PointSrc.rs2,
      and_fullMask_eq_commandWord_iff]
    tauto

end

/-! ## The words that carry a command -/

theorem opcode_build (op : Opcode) (w : Word) : (build op w).opcode = op := by cases op <;> rfl

/-- `w` names the command `i` in all the fields `i` uses, and passes every check but the ranges. -/
def Carries (w : Word) (i : Instr) : Prop :=
  fieldOpc w = i.opcode.code ∧ fieldReserved11 w = false ∧ fieldReservedTop w = 0 ∧
    (fieldB w = true → i.opcode.acceptsB = true) ∧
    i.opcode.acceptsMsel (Msel.ofBits (fieldMsel w)) = true ∧ build i.opcode w = i

theorem affOk_pointSrcOf (w : Word) :
    (pointSrcOf w).affOk = true ↔ (fieldB w = false → (fieldRs2 w).val ≤ 14) := by
  unfold pointSrcOf; cases fieldB w <;> simp [PointSrc.affOk, Reg.beginsPair]

theorem extOk_pointSrcOf (w : Word) :
    (pointSrcOf w).extOk = true ↔ (fieldB w = false → (fieldRs2 w).val ≤ 12) := by
  unfold pointSrcOf; cases fieldB w <;> simp [PointSrc.extOk, Reg.beginsExt]

/-- A well-formed command passes the range check in a word it is built from (60_exceptions.md R285). -/
theorem rangeOk_of_wellFormed_build {op : Opcode} {w : Word} (h : (build op w).wellFormed = true) :
    op.rangeOk w = true := by
  rw [rangeOk_iff]
  have hrd : (fieldRd w).val ≤ 15 := (fieldRd w).is_le
  have hrs1 : (fieldRs1 w).val ≤ 15 := (fieldRs1 w).is_le
  have hrs2 : (fieldRs2 w).val ≤ 15 := (fieldRs2 w).is_le
  cases op <;>
    simp only [build, Instr.wellFormed, Opcode.rangeMax, Reg.beginsPair, Reg.beginsJac, Reg.beginsExt,
      affOk_pointSrcOf, extOk_pointSrcOf, Bool.and_eq_true, decide_eq_true_eq] at h ⊢ <;>
    tauto

theorem decode_eq_ok_iff_carries (w : Word) (i : Instr) :
    decode w = .ok i ↔ i.wellFormed = true ∧ Carries w i := by
  rw [decode_eq_ok_iff]
  constructor
  · rintro ⟨op, hop, hc, rfl⟩
    obtain ⟨h11, htop, hb, hm, -⟩ := (checkFields_eq_none_iff op w).mp hc
    refine ⟨build_wellFormed hc, ?_⟩
    unfold Carries
    rw [opcode_build]
    exact ⟨(code_of_ofCode hop).symm, h11, htop, hb, hm, rfl⟩
  · rintro ⟨hwf, hopc, h11, htop, hb, hm, hbuild⟩
    exact ⟨i.opcode, hopc ▸ ofCode_code i.opcode, (checkFields_eq_none_iff _ w).mpr
      ⟨h11, htop, hb, hm, rangeOk_of_wellFormed_build (hbuild.symm ▸ hwf)⟩, hbuild⟩

/-- A word carries a well-formed command when it agrees with the command's encoding off the ignored
fields (R98, R99): under each of the masks both say the same of the fields. -/
theorem carries_iff_masked {i : Instr} (hwf : i.wellFormed = true) (w : Word) :
    Carries w i ↔ w &&& i.fieldMask = encode i := by
  unfold Carries
  cases i with
  | nop =>
    rw [Instr.fieldMask, encode, and_nopMask_eq_commandWord_iff]
    simp [build, Instr.opcode, Opcode.acceptsB, Opcode.acceptsMsel]
  | add | sub | madd | msub | mul | mmul | edadd | jadd =>
    rw [Instr.fieldMask, encode, and_fullMask_eq_commandWord_iff]
    simp [build, Instr.opcode, Opcode.acceptsB, Opcode.acceptsMsel, ofBits_eq_iff, code_f25519,
      code_f521]
  | rquick | minv | eddbl | jdbl =>
    rw [Instr.fieldMask, encode, and_rs2Mask_eq_commandWord_iff]
    simp [build, Instr.opcode, Opcode.acceptsB, Opcode.acceptsMsel, ofBits_eq_iff, code_f25519,
      code_f521]
  | fred m | bred m =>
    rw [Instr.fieldMask, encode, and_rs2Mask_eq_commandWord_iff]
    cases m <;>
      simp +contextual [build, Instr.opcode, Opcode.acceptsB, Opcode.acceptsMsel, ofBits_eq_iff,
        Instr.wellFormed, Msel.isField, Msel.isOrder] at hwf ⊢
  | ladder | smul521 | edsmulCt | edsmulVt =>
    rw [Instr.fieldMask, encode, and_pointMask_eq_commandWord_iff]
    simp [build, Instr.opcode, Opcode.acceptsB, Opcode.acceptsMsel, ofBits_eq_iff, code_f25519,
      code_f521]

/-- The fields of an encoding are the ones it was given, so its ignored fields are 0 (R101). -/
theorem encode_and_fieldMask (i : Instr) : encode i &&& i.fieldMask = encode i := by
  cases i <;>
    simp only [encode, Instr.fieldMask, and_nopMask_eq_commandWord_iff, and_rs2Mask_eq_commandWord_iff,
      and_fullMask_eq_commandWord_iff, and_pointMask_eq_commandWord_iff, fieldOpc_commandWord,
      fieldReserved11_commandWord, fieldReservedTop_commandWord, fieldB_commandWord,
      fieldMsel_commandWord, fieldRd_commandWord, fieldRs1_commandWord, fieldRs2_commandWord,
      pointSrcOf_commandWord, and_self]

/-! ## The decoder and the encoder -/

/-- Settles O2: the words that decode to `i` are those that carry it, which the mask describes. -/
theorem decodedWordsAreTheEncodings : Obligations.DecodedWordsAreTheEncodings := by
  intro w i
  rw [decode_eq_ok_iff_carries]
  exact and_congr_right fun hwf => carries_iff_masked hwf w

/-- Settles O1: the encoding of `i` is itself a word that agrees with it off the ignored fields. -/
theorem decodeOfEncode : Obligations.DecodeOfEncode := fun i hwf =>
  (decodedWordsAreTheEncodings (encode i) i).mpr ⟨hwf, encode_and_fieldMask i⟩

theorem decode_of_encode_eq {w : Word} {i : Instr} (hwf : i.wellFormed = true) (h : encode i = w) :
    decode w = .ok i := h ▸ decodeOfEncode i hwf

/-- Settles O3: each sample word is the encoding of a well-formed command. -/
theorem sampleWordsDecode : Obligations.SampleWordsDecode := by
  refine ⟨?_, ?_, ?_, ?_, ?_, ?_, ?_, ?_, ?_, ?_⟩ <;>
    exact decode_of_encode_eq (by decide) (by decide)

end Sys2Proof
end

section
/-! The moduli and the widths (30_encoding.md R92, 10_state.md R35, R37), and the LDREG and STREG macros run
through `step` (30_encoding.md R102). -/

namespace Sys2Proof.Machine

open Sys2Proof

/-- Settles O35: the ROM's constants, and W521 at each limb width. -/
theorem modulusAndWidth : Obligations.ModulusAndWidth := by
  refine ⟨⟨rfl, rfl, romP521_eq, rfl⟩, fun s => ⟨rfl, rfl, rfl, ?_⟩⟩
  rw [State.width]
  cases s.params.limbBits <;> decide

/-! ## A register loaded word by word (20_memory.md R65, R67) -/

/-- `u` with its words of the list `js` replaced by those of `v`. -/
def loadWords (v : Operand) (js : List (Fin 18)) (u : Operand) : Operand :=
  js.foldl (fun u j => setWordOf u j (wordOf v j)) u

theorem wordOf_loadWords_of_notMem (v : Operand) {js : List (Fin 18)} {j : Fin 18} (h : j ∉ js) :
    ∀ u, wordOf (loadWords v js u) j = wordOf u j := by
  induction js with
  | nil => exact fun u => rfl
  | cons j' js ih =>
    obtain ⟨hne, hjs⟩ := not_or.mp (mt List.mem_cons.mpr h)
    exact fun u => (ih hjs _).trans (wordOf_setWordOf_ne u _ hne)

theorem wordOf_loadWords_of_mem (v : Operand) {js : List (Fin 18)} {j : Fin 18} (h : j ∈ js) :
    ∀ u, wordOf (loadWords v js u) j = wordOf v j := by
  induction js with
  | nil => cases h
  | cons j' js ih =>
    intro u
    by_cases hjs : j ∈ js
    · exact ih hjs _
    · obtain rfl : j = j' := (List.mem_cons.mp h).resolve_right hjs
      exact (wordOf_loadWords_of_notMem v hjs _).trans (wordOf_setWordOf_self u j _)

/-- All 18 words loaded are the whole value. -/
theorem loadWords_windowWords (u v : Operand) : loadWords v windowWords u = v :=
  eq_of_wordOf_eq fun j => wordOf_loadWords_of_mem v (List.mem_finRange j) u

/-- The state with `v` in operand register `k`. -/
def State.setReg (s : State) (k : Reg) (v : Operand) : State := { s with x := s.x.set k.val v k.isLt }

@[simp] theorem reg_setReg_self (s : State) (k : Reg) (v : Operand) : (s.setReg k v).reg k = v :=
  Vector.getElem_set_self _

theorem reg_setReg_ne (s : State) {k r : Reg} (v : Operand) (h : r ≠ k) :
    (s.setReg k v).reg r = s.reg r :=
  Vector.getElem_set_ne k.isLt r.isLt fun hc => h (Fin.ext hc.symm)

@[simp] theorem setReg_reg (s : State) (k : Reg) : s.setReg k (s.reg k) = s := by
  have hx : s.x.set k.val (s.reg k) k.isLt = s.x := Vector.set_getElem_self _
  rw [State.setReg, hx]

@[simp] theorem setReg_setReg (s : State) (k : Reg) (u v : Operand) :
    (s.setReg k u).setReg k v = s.setReg k v := by
  simp [State.setReg]

/-- A window write at the head of the agenda, from an IDLE state, is one step. -/
theorem step_windowWrite {s : State} {k : Reg} {j : Fin 18} {w : Word} {rest : List HostEvent}
    (hb : s.status.busy = false) (ha : s.agenda = .write (windowAddr k j) w :: rest) :
    step s = .next { s.setReg k (setWordOf (s.reg k) j w) with agenda := rest } := by
  have hw := writeWindow_idle (s := { s with agenda := rest }) k j w hb
  rw [step_of_not_ready (engineReady_idle hb), worldStep_cons ha, State.hostStep,
    busWrite_window _ _ (windowAddr_index k j), hw]
  rfl

/-- Window writes of the words `js` of `v`, from an IDLE state: as many steps, and `x[k]` loaded. -/
theorem run_windowWrites (v : Operand) (k : Reg) (js : List (Fin 18)) (rest : List HostEvent)
    {s : State} (hb : s.status.busy = false)
    (ha : s.agenda = js.map (fun j => .write (windowAddr k j) (wordOf v j)) ++ rest) :
    core.run js.length s = .next { s.setReg k (loadWords v js (s.reg k)) with agenda := rest } := by
  induction js generalizing s with
  | nil =>
    rw [List.map_nil, List.nil_append] at ha
    rw [loadWords, List.foldl_nil, setReg_reg, ← ha]
    rfl
  | cons j js ih =>
    let t := s.setReg k (setWordOf (s.reg k) j (wordOf v j))
    have ht : t.setReg k (loadWords v js (t.reg k)) =
        s.setReg k (loadWords v (j :: js) (s.reg k)) := by
      rw [reg_setReg_self, setReg_setReg]
      rfl
    rw [List.length_cons, run_succ_of_step _ (step_windowWrite hb ha), ← ht]
    exact ih hb rfl

/-! ## LDREG and STREG (R102, 20_memory.md R65–R67) -/

theorem ldreg_loads {s : State} {k : Reg} {v : Operand} {rest : List HostEvent}
    (hb : s.status.busy = false) (ha : s.agenda = macroLdreg k v ++ rest) :
    core.run 18 s = .next { s.setReg k v with agenda := rest } := by
  have h := run_windowWrites v k windowWords rest hb ha
  rwa [loadWords_windowWords] at h

theorem streg_reads {s : State} {k : Reg} {rest : List HostEvent} (hb : s.status.busy = false)
    (ha : s.agenda = macroStreg k ++ rest) :
    core.run 18 s = .next { s with
      agenda := rest, returned := (windowWords.map (wordOf (s.reg k))).reverse ++ s.returned } := by
  have ha' : s.agenda = (windowWords.map (windowAddr k)).map HostEvent.read ++ rest := by
    rw [ha, macroStreg, List.map_map]; rfl
  have h := run_reads _ rest hb ha'
  rw [List.map_map] at h
  rw [← busRead_windowWords k hb]
  exact h

/-- Settles O33: LDREG replaces the 18 words of `x[k]` one by one, and STREG's reads answer them. -/
theorem ldregLoadsTheRegister : Obligations.LdregLoadsTheRegister := by
  refine fun s k rest hb => ⟨fun v ha => ?_, fun ha => ?_⟩
  · exact ⟨_, ldreg_loads hb ha, reg_setReg_self s k v, fun r hr => reg_setReg_ne s v hr, rfl⟩
  · exact ⟨_, streg_reads hb ha, stregValue_words rfl, rfl⟩

end Sys2Proof.Machine
end

section
/-! The limb adder and subtractor (40_limb_adder_subtractor.md): the OPC of an encoded command, the
values the five commands compute, and their completions. -/

namespace Sys2Proof.Machine

open Sys2Proof

/-! ## The OPC of an encoded command (30_encoding.md R99) -/

theorem opcNum_eq_fieldOpc (w : Word) : opcNum w = (fieldOpc w).toNat := by
  simp [opcNum, fieldOpc]

theorem opcNum_encode (i : Instr) : opcNum (encode i) = i.opcode.code.toNat := by
  rw [opcNum_eq_fieldOpc]
  cases i <;> exact congrArg BitVec.toNat (fieldOpc_commandWord _ _ _ _ _ _)

/-! ## The values (R8, R130–R134) -/

/-- The difference of two residues wraps once (R131). -/
theorem modInt_sub_of_lt {n a b : Nat} (ha : a < n) (hb : b < n) :
    modInt ((a : Int) - b) n = if a < b then a + n - b else a - b := by
  unfold modInt
  split
  case isTrue hlt =>
    rw [← Int.add_emod_right, Int.emod_eq_of_lt (by omega) (by omega)]
    omega
  case isFalse hge =>
    rw [Int.emod_eq_of_lt (by omega) (by omega)]
    omega

/-- `f-` is the difference modulo `m` (R9). -/
theorem fSub_modEq {m : Nat} (hm : 0 < m) (a b : Nat) :
    (fSub m a b : Int) ≡ (a : Int) - b [ZMOD m] := by
  rw [fSub, natCast_modInt _ hm]
  exact Int.mod_modEq _ _

theorem trialSub_eq (m a : Nat) : trialSub m a = if m ≤ a then a - m else a := by
  simp [trialSub, cmove_eq]

theorem trialSub_le (m a : Nat) : trialSub m a ≤ a := by
  rw [trialSub_eq]
  split <;> omega

/-- One trial subtraction reduces a value below `2m` (R132). -/
theorem trialSub_eq_mod {m a : Nat} (h : a < 2 * m) : trialSub m a = a % m := by
  rw [trialSub_eq]
  split
  case isTrue hge => rw [Nat.mod_eq_sub_mod hge, Nat.mod_eq_of_lt (by omega)]
  case isFalse hlt => exact (Nat.mod_eq_of_lt (by omega)).symm

theorem flagsOf_canonical_and (m a b r : Nat) :
    flagsOf (canonical m a && canonical m b) r =
      ⟨false, decide (a < m ∧ b < m), decide (r = 0)⟩ := by
  rw [flagsOf, canonical, canonical, isZero, Bool.decide_and]

/-! ## Completions with one destination (10_state.md R42, 30_encoding.md R95) -/

/-- What a command with one destination leaves, when the register holds its value whole. -/
theorem exec_dst {i : Instr} {s : State} {rd : Reg} {v : Nat} {f : Flags}
    (h : exec i s = .next (s.complete ⟨dst rd v, some f⟩))
    (hv : (BitVec.ofNat 576 v).toNat = v) :
    ∃ t, exec i s = .next t ∧ t.Completed ∧ s.UnchangedBut t [rd] ∧ (t.reg rd).toNat = v ∧
      t.flags = f :=
  ⟨_, h, completed_complete _ _, unchangedBut_complete _ _, by rw [reg_complete_dst, hv], rfl⟩

/-- The next command reads back what a completion wrote at its width. -/
theorem src_complete_dst (s : State) (m : Msel) (rd : Reg) {v : Nat} (f : Option Flags)
    (h : v < 2 ^ s.width m) : (s.complete ⟨dst rd v, f⟩).src m rd = v := by
  rw [State.src, reg_complete_dst, toNat_ofNat_of_lt_width s m h]
  exact Nat.mod_eq_of_lt h

theorem toNat_ofNat_of_lt_modulus {v : Nat} {m : Msel} (h : v < modulus m) :
    (BitVec.ofNat 576 v).toNat = v :=
  toNat_ofNat_of_lt_521 (lt_of_lt_of_le h (modulus_le m))

section
variable (m : Msel) (rd rs1 rs2 : Reg) (s : State)

theorem exec_add : exec (.add m rd rs1 rs2) s =
    .next (s.complete (addResult (s.width m) rd (s.src m rs1) (s.src m rs2))) := rfl

theorem exec_sub : exec (.sub m rd rs1 rs2) s =
    .next (s.complete (subResult (s.width m) rd (s.src m rs1) (s.src m rs2))) := rfl

theorem exec_rquick : exec (.rquick m rd rs1) s =
    .next (s.complete (rquickResult (modulus m) rd (s.src m rs1))) := rfl

theorem exec_madd : exec (.madd m rd rs1 rs2) s =
    .next (s.complete (maddResult (modulus m) rd (s.src m rs1) (s.src m rs2))) := rfl

theorem exec_msub : exec (.msub m rd rs1 rs2) s =
    .next (s.complete (msubResult (modulus m) rd (s.src m rs1) (s.src m rs2))) := rfl

end

/-! ## The five commands -/

namespace LimbArith

/-- Settles O37: the sum modulo `2^W` fits the register. -/
theorem addResult : Obligations.AddResult := by
  intro m rd rs1 rs2 s
  have hfit := toNat_ofNat_of_lt_width s m
    (Nat.mod_lt (s.src m rs1 + s.src m rs2) (Nat.two_pow_pos (s.width m)))
  exact ⟨opcNum_encode _, exec_dst (exec_add m rd rs1 rs2 s) hfit⟩

/-- Settles O38: the sources are below `2^W`, so the difference wraps at most once. -/
theorem subResult : Obligations.SubResult := by
  intro m rd rs1 rs2 s
  have hfit := toNat_ofNat_of_lt_width s m
    (modInt_lt ((s.src m rs1 : Int) - s.src m rs2) (Nat.two_pow_pos (s.width m)))
  obtain ⟨t, hexec, hdone, hframe, hreg, hflags⟩ := exec_dst (exec_sub m rd rs1 rs2 s) hfit
  exact ⟨opcNum_encode _, t, hexec, hdone, hframe,
    hreg.trans (modInt_sub_of_lt (src_lt s m rs1) (src_lt s m rs2)), hflags⟩

/-- Settles O39: the trial subtraction is the conditional one, and it does not exceed the source. -/
theorem rquickResult : Obligations.RquickResult := by
  intro m rd rs1 s
  have hfit := toNat_ofNat_of_lt_width s m
    (lt_of_le_of_lt (trialSub_le (modulus m) _) (src_lt s m rs1))
  obtain ⟨t, hexec, hdone, hframe, hreg, hflags⟩ := exec_dst (exec_rquick m rd rs1 s) hfit
  refine ⟨opcNum_encode _, t, hexec, hdone, hframe, hreg.trans (trialSub_eq _ _), ?_⟩
  rw [hreg]
  exact hflags

/-- Settles O40: the sum modulo `m` fits the register. -/
theorem maddResult : Obligations.MaddResult := by
  intro m rd rs1 rs2 s
  have hfit := toNat_ofNat_of_lt_modulus (fAdd_lt (modulus_pos m) (s.src m rs1) (s.src m rs2))
  obtain ⟨t, hexec, hdone, hframe, hreg, hflags⟩ := exec_dst (exec_madd m rd rs1 rs2 s) hfit
  exact ⟨opcNum_encode _, t, hexec, hdone, hframe, hreg,
    hflags.trans (flagsOf_canonical_and _ _ _ _)⟩

/-- Settles O41: `f-` answers the residue of the difference in `[0, m)`. -/
theorem msubResult : Obligations.MsubResult := by
  intro m rd rs1 rs2 s
  have hlt := fSub_lt (modulus_pos m) (s.src m rs1) (s.src m rs2)
  obtain ⟨t, hexec, hdone, hframe, hreg, hflags⟩ :=
    exec_dst (exec_msub m rd rs1 rs2 s) (toNat_ofNat_of_lt_modulus hlt)
  refine ⟨opcNum_encode _, t, hexec, hdone, hframe, ?_⟩
  rw [hreg]
  exact ⟨hlt, fSub_modEq (modulus_pos m) _ _, hflags.trans (flagsOf_canonical_and _ _ _ _)⟩

/-- Settles O57: the sum of canonical operands is below `2m`, so ADD does not wrap it and one trial
subtraction reduces it. -/
theorem addThenRquickIsMadd : Obligations.AddThenRquickIsMadd := by
  intro m rd rs1 rs2 s t u v ha hb hadd hrquick hmadd
  have hsum : s.src m rs1 + s.src m rs2 < 2 * modulus m := by omega
  have hwidth := lt_of_lt_of_le hsum (two_modulus_le s m)
  have ht : t.src m rd = s.src m rs1 + s.src m rs2 := by
    cases hadd
    rw [Machine.addResult, src_complete_dst s m rd _ (Nat.mod_lt _ (Nat.two_pow_pos _)),
      Nat.mod_eq_of_lt hwidth]
  have hu : u.reg rd = BitVec.ofNat 576 (trialSub (modulus m) (t.src m rd)) := by
    cases hrquick
    exact reg_complete_dst _ _ _ _
  have hv : v.reg rd = BitVec.ofNat 576 (fAdd (modulus m) (s.src m rs1) (s.src m rs2)) := by
    cases hmadd
    exact reg_complete_dst _ _ _ _
  rw [hu, ht, trialSub_eq_mod hsum, hv, fAdd]

end LimbArith

end Sys2Proof.Machine
end

section
/-! The multiplier (41_montgomery_multiplier.md): the product as a register pair, the completions of MUL,
MMUL and MINV, and MMUL as MUL followed by a reduction (42_reduction.md). -/

namespace Sys2Proof.Machine

open Sys2Proof

/-! ## The values (R8, R150, R152) -/

/-- The product of two sources has at most twice the width (R150). -/
theorem src_mul_div_lt (s : State) (m : Msel) (i j : Reg) :
    s.src m i * s.src m j / 2 ^ s.width m < 2 ^ s.width m :=
  Nat.div_lt_of_lt_mul (Nat.mul_lt_mul'' (src_lt s m i) (src_lt s m j))

theorem flagsOf_canonical_nonzero (m a r : Nat) :
    flagsOf (canonical m a && !isZero a) r = ⟨false, decide (a < m ∧ a ≠ 0), decide (r = 0)⟩ := by
  rw [flagsOf, canonical, isZero, isZero, Bool.decide_and, decide_not]

/-! ## Completions with a pair of destinations (10_state.md R42, 30_encoding.md R96) -/

/-- What a command with a pair of destinations leaves, when the registers hold its values whole. -/
theorem exec_dstPair {i : Instr} {s : State} {rd : Reg} {lo hi : Nat} {f : Flags}
    (h : exec i s = .next (s.complete ⟨dstPair rd lo hi, some f⟩))
    (hlo : (BitVec.ofNat 576 lo).toNat = lo) (hhi : (BitVec.ofNat 576 hi).toNat = hi) :
    ∃ t, exec i s = .next t ∧ t.Completed ∧ s.UnchangedBut t [rd, rd + 1] ∧
      (t.reg rd).toNat = lo ∧ (t.reg (rd + 1)).toNat = hi ∧ t.flags = f := by
  obtain ⟨hreglo, hreghi⟩ := reg_complete_dstPair s rd lo hi (some f)
  exact ⟨_, h, completed_complete _ _, unchangedBut_complete _ _, by rw [hreglo, hlo],
    by rw [hreghi, hhi], rfl⟩

/-- A completion keeps the parameters, so the widths (R92). -/
@[simp] theorem width_complete (s : State) (r : Result) (m : Msel) :
    (s.complete r).width m = s.width m := rfl

/-- A register that a completion left with a value of its width reads back as that value. -/
theorem src_complete_of_reg {s : State} {m : Msel} {r : Result} {i : Reg} {v : Nat}
    (hreg : (s.complete r).reg i = BitVec.ofNat 576 v) (h : v < 2 ^ s.width m) :
    (s.complete r).src m i = v := by
  rw [State.src, hreg, toNat_ofNat_of_lt_width s m h, width_complete, Nat.mod_eq_of_lt h]

/-- The next command reads back the pair a completion wrote (R96). -/
theorem srcPair_complete_dstPair {s : State} {m : Msel} {rd : Reg} {lo hi : Nat} (f : Option Flags)
    (hlo : lo < 2 ^ s.width m) (hhi : hi < 2 ^ s.width m) :
    (s.complete ⟨dstPair rd lo hi, f⟩).srcPair m rd = hi * 2 ^ s.width m + lo := by
  obtain ⟨hreglo, hreghi⟩ := reg_complete_dstPair s rd lo hi f
  rw [State.srcPair, src_complete_of_reg hreglo hlo, src_complete_of_reg hreghi hhi,
    width_complete]

section
variable (m : Msel) (rd rs1 rs2 : Reg) (s : State)

theorem exec_mul (h : rd.val ≤ 14) : exec (.mul m rd rs1 rs2) s =
    .next (s.complete (mulResult (s.width m) rd (s.src m rs1) (s.src m rs2))) :=
  finish_of_true _ (decide_eq_true h)

theorem exec_mmul : exec (.mmul m rd rs1 rs2) s =
    .next (s.complete (mmulResult (modulus m) rd (s.src m rs1) (s.src m rs2))) := rfl

theorem exec_minv : exec (.minv m rd rs1) s =
    .next (s.complete (minvResult (modulus m) rd (s.src m rs1))) := rfl

theorem exec_fred_eq_finish : exec (.fred m rd rs1) s =
    s.finish (Instr.fred m rd rs1).wellFormed
      (residueResult (modulus m) rd (s.srcPair m rs1)) := rfl

theorem exec_bred_eq_finish : exec (.bred m rd rs1) s =
    s.finish (Instr.bred m rd rs1).wellFormed
      (residueResult (modulus m) rd (s.srcPair m rs1)) := rfl

/-- After MUL the pair holds the exact product (R150). -/
theorem srcPair_complete_mulResult :
    (s.complete (mulResult (s.width m) rd (s.src m rs1) (s.src m rs2))).srcPair m rd =
      s.src m rs1 * s.src m rs2 := by
  rw [mulResult, srcPair_complete_dstPair _ (Nat.mod_lt _ (Nat.two_pow_pos _))
    (src_mul_div_lt s m rs1 rs2)]
  exact Nat.div_add_mod' _ _

end

/-- A completed reduction, by FRED or by BRED, leaves the residue of the pair (42_reduction.md R170, R171). -/
theorem reg_finish_residueResult {s u : State} {wf : Bool} {m v : Nat} {rd : Reg}
    (h : s.finish wf (residueResult m rd v) = .next u) : u.reg rd = BitVec.ofNat 576 (v % m) := by
  obtain ⟨-, rfl⟩ := finish_eq_next.mp h
  exact reg_complete_dst s rd _ _

/-! ## The three commands -/

namespace Multiplier

/-- Settles O42: both halves of the product fit the width, and together they are the product. -/
theorem mulResult : Obligations.MulResult := by
  intro m rd rs1 rs2 s hrd w p
  have hlo : p % 2 ^ w < 2 ^ w := Nat.mod_lt _ (Nat.two_pow_pos w)
  have hhi : p / 2 ^ w < 2 ^ w := src_mul_div_lt s m rs1 rs2
  obtain ⟨t, hexec, hdone, hframe, hreglo, hreghi, hflags⟩ :=
    exec_dstPair (exec_mul m rd rs1 rs2 s hrd) (toNat_ofNat_of_lt_width s m hlo)
      (toNat_ofNat_of_lt_width s m hhi)
  refine ⟨opcNum_encode _, t, hexec, hdone, hframe, ?_⟩
  rw [hreglo, hreghi]
  exact ⟨hlo, hhi, Nat.div_add_mod' p (2 ^ w), hflags⟩

/-- Settles O43: the residue of the product fits the register. -/
theorem mmulResult : Obligations.MmulResult := by
  intro m rd rs1 rs2 s
  have hfit := toNat_ofNat_of_lt_modulus (fMul_lt (modulus_pos m) (s.src m rs1) (s.src m rs2))
  obtain ⟨t, hexec, hdone, hframe, hreg, hflags⟩ := exec_dst (exec_mmul m rd rs1 rs2 s) hfit
  exact ⟨opcNum_encode _, t, hexec, hdone, hframe, hreg,
    hflags.trans (flagsOf_canonical_and _ _ _ _)⟩

/-- Settles O44: `inv_m` is the plain power, and it fits the register. -/
theorem minvResult : Obligations.MinvResult := by
  intro m rd rs1 s
  have hfit := toNat_ofNat_of_lt_modulus (fInv_lt (modulus_le m) (modulus_pos m) (s.src m rs1))
  obtain ⟨t, hexec, hdone, hframe, hreg, hflags⟩ := exec_dst (exec_minv m rd rs1 s) hfit
  refine ⟨opcNum_encode _, t, hexec, hdone, hframe,
    hreg.trans (fInv_eq (modulus_le m) (modulus_pos m) _), ?_⟩
  rw [hreg]
  exact hflags.trans (flagsOf_canonical_nonzero _ _ _)

/-- Settles O56: MUL leaves the exact product in the pair, and either reduction leaves its residue,
which is what MMUL writes. -/
theorem mulThenReduceIsMmul : Obligations.MulThenReduceIsMmul := by
  intro m rp rd rs1 rs2 s t u v hrp hmul hreduce hmmul
  have ht : t.srcPair m rp = s.src m rs1 * s.src m rs2 := by
    rw [exec_mul m rp rs1 rs2 s hrp] at hmul
    cases hmul
    exact srcPair_complete_mulResult m rp rs1 rs2 s
  have hu : u.reg rd = BitVec.ofNat 576 (t.srcPair m rp % modulus m) := by
    split at hreduce
    · rw [exec_fred_eq_finish] at hreduce
      exact reg_finish_residueResult hreduce
    · rw [exec_bred_eq_finish] at hreduce
      exact reg_finish_residueResult hreduce
  have hv : v.reg rd = BitVec.ofNat 576 (fMul (modulus m) (s.src m rs1) (s.src m rs2)) := by
    cases hmmul
    exact reg_complete_dst _ _ _ _
  rw [hu, ht, hv, fMul]

end Multiplier

end Sys2Proof.Machine
end

section
/-! The reductions of a register pair (42_reduction.md): FRED and BRED differ in the moduli they accept,
and complete alike, with the residue of the pair. -/

namespace Sys2Proof.Machine

open Sys2Proof

/-! ## Completions with a residue (R170, R171) -/

/-- A field prime and a source pair that fits are what R99 asks of FRED. -/
theorem wellFormed_fred {m : Msel} {rs1 : Reg} (rd : Reg) (hm : m = .f25519 ∨ m = .f521)
    (hrs1 : rs1.val ≤ 14) : (Instr.fred m rd rs1).wellFormed = true := by
  have hpair : Reg.beginsPair rs1 = true := decide_eq_true hrs1
  rcases hm with rfl | rfl <;> exact hpair

/-- A group order and a source pair that fits are what R99 asks of BRED. -/
theorem wellFormed_bred {m : Msel} {rs1 : Reg} (rd : Reg) (hm : m = .l25519 ∨ m = .q521)
    (hrs1 : rs1.val ≤ 14) : (Instr.bred m rd rs1).wellFormed = true := by
  have hpair : Reg.beginsPair rs1 = true := decide_eq_true hrs1
  rcases hm with rfl | rfl <;> exact hpair

/-- What a well-formed reduction leaves: the residue of the pair, which fits the register. -/
theorem exec_residue {i : Instr} {s : State} {wf : Bool} {m : Msel} {rd : Reg} {v : Nat}
    (h : exec i s = s.finish wf (residueResult (modulus m) rd v)) (hwf : wf = true) :
    ∃ t, exec i s = .next t ∧ t.Completed ∧ s.UnchangedBut t [rd] ∧
      (t.reg rd).toNat = v % modulus m ∧
      t.flags = ⟨false, true, decide (v % modulus m = 0)⟩ :=
  exec_dst (h.trans (finish_of_true _ hwf))
    (toNat_ofNat_of_lt_modulus (Nat.mod_lt v (modulus_pos m)))

/-! ## The two commands -/

namespace Reduction

/-- Settles O45: FRED is well formed here, so it completes with the residue of its pair. -/
theorem fredResult : Obligations.FredResult := fun m rd rs1 s hm hrs1 =>
  ⟨opcNum_encode _, exec_residue (exec_fred_eq_finish m rd rs1 s) (wellFormed_fred rd hm hrs1)⟩

/-- Settles O46: BRED is well formed here, so it completes with the residue of its pair. -/
theorem bredResult : Obligations.BredResult := fun m rd rs1 s hm hrs1 =>
  ⟨opcNum_encode _, exec_residue (exec_bred_eq_finish m rd rs1 s) (wellFormed_bred rd hm hrs1)⟩

end Reduction

end Sys2Proof.Machine
end

section
/-! The ladder's formulas over any commutative ring (43_curve25519_ladder.md R190): what one iteration
does to its values, and the two cases in which the ladder gives 0. -/

namespace Sys2Proof.Ring

open Sys2Proof

theorem bitsDown_succ (n : Nat) : bitsDown (n + 1) = n :: bitsDown n := by
  simp [bitsDown, List.range_succ]

variable {R : Type} [CommRing R]

/-- A pair `(x, z)` with `x * z = 0`: over a field the point at infinity, the point of u-coordinate 0,
or `(0, 0)`. R190's division gives 0 on it. -/
def Degenerate (x z : R) : Prop := x * z = 0

theorem Degenerate.of_z_eq_zero {x z : R} (h : z = 0) : Degenerate x z := by
  rw [Degenerate, h, mul_zero]

/-- The quotient `x / z`, a product with a power of `z`, is 0. -/
theorem Degenerate.mul_pow_eq_zero {x z : R} {n : Nat} (h : Degenerate x z) (hn : n ≠ 0) :
    x * z ^ n = 0 := by
  obtain ⟨e, rfl⟩ := Nat.exists_eq_succ_of_ne_zero hn
  calc x * z ^ (e + 1) = x * z * z ^ e := by ring
    _ = 0 := by rw [h, zero_mul]

/-- Doubling a degenerate pair leaves `z2 = 0`: `E` is `4 * x2 * z2`. -/
theorem ladderArith_z2_of_degenerate (x1 : R) {q : Quad R} (h : Degenerate q.1 q.2.1) :
    (ladderArith x1 q).2.1 = 0 := by
  have hE : (q.1 + q.2.1) ^ 2 - (q.1 - q.2.1) ^ 2 = 0 := by
    calc (q.1 + q.2.1) ^ 2 - (q.1 - q.2.1) ^ 2 = 4 * (q.1 * q.2.1) := by ring
      _ = 0 := by rw [h, mul_zero]
  simp only [ladderArith, hE, zero_mul]

/-- On input 0 the differential addition leaves `z3 = 0`. -/
theorem ladderArith_z3_of_zero (q : Quad R) : (ladderArith 0 q).2.2.2 = 0 := zero_mul _

/-- The ladder gives 0 when an invariant of its iterations makes the pair it divides degenerate. -/
theorem ladder_eq_zero_of_invariant {p k : Nat} {x1 : R} (Inv : Quad R × Bool → Prop) (hp : 2 < p)
    (hinit : Inv ((1, 0, x1, 1), false)) (hiter : ∀ a t, Inv a → Inv (ladderIter k x1 a t))
    (hend : ∀ a, Inv a → Degenerate (swapIf a.2 a.1).1 (swapIf a.2 a.1).2.1) :
    ladder p k x1 = 0 := by
  have hlast := List.foldlRecOn (bitsDown 255) (ladderIter k x1) (motive := Inv) hinit
    fun a ha t _ => hiter a t ha
  exact (hend _ hlast).mul_pow_eq_zero (by omega)

/-- With scalar 0 no swap is ever pending and the first pair stays degenerate. -/
def FirstDegenerate (a : Quad R × Bool) : Prop := Degenerate a.1.1 a.1.2.1 ∧ a.2 = false

theorem ladderIter_zero_scalar (x1 : R) (q : Quad R) (t : Nat) :
    ladderIter 0 x1 (q, false) t = (ladderArith x1 q, false) := by
  simp [ladderIter, swapIf]

theorem FirstDegenerate.ladderIter {a : Quad R × Bool} (h : FirstDegenerate a) (x1 : R) (t : Nat) :
    FirstDegenerate (ladderIter 0 x1 a t) := by
  obtain ⟨q, swap⟩ := a
  obtain ⟨hq, rfl⟩ := h
  rw [ladderIter_zero_scalar]
  exact ⟨.of_z_eq_zero (ladderArith_z2_of_degenerate x1 hq), rfl⟩

/-- Scalar 0 gives 0 (R190). -/
theorem ladder_zero_scalar {p : Nat} (hp : 2 < p) (x1 : R) : ladder p 0 x1 = 0 := by
  refine ladder_eq_zero_of_invariant FirstDegenerate hp ⟨.of_z_eq_zero rfl, rfl⟩
    (fun a t h => h.ladderIter x1 t) ?_
  rintro ⟨q, swap⟩ ⟨hq, rfl⟩
  exact hq

/-- With input 0 both pairs stay degenerate, whichever the scalar swaps. -/
def BothDegenerate (q : Quad R) : Prop := Degenerate q.1 q.2.1 ∧ Degenerate q.2.2.1 q.2.2.2

theorem BothDegenerate.swapIf {q : Quad R} (h : BothDegenerate q) (s : Bool) :
    BothDegenerate (swapIf s q) := by
  cases s with
  | false => exact h
  | true => exact h.symm

theorem BothDegenerate.ladderArith {q : Quad R} (h : BothDegenerate q) :
    BothDegenerate (ladderArith 0 q) :=
  ⟨.of_z_eq_zero (ladderArith_z2_of_degenerate 0 h.1), .of_z_eq_zero (ladderArith_z3_of_zero q)⟩

/-- Input 0 gives 0 for every scalar (R190). -/
theorem ladder_zero_input {p : Nat} (hp : 2 < p) (k : Nat) : ladder p k (0 : R) = 0 :=
  ladder_eq_zero_of_invariant (fun a => BothDegenerate a.1) hp
    ⟨.of_z_eq_zero rfl, zero_mul _⟩ (fun _ _ h => (h.swapIf _).ladderArith)
    fun _ h => (h.swapIf _).1

end Sys2Proof.Ring
end

section
/-! The Curve25519 ladder (43_curve25519_ladder.md R190–R193): the block's values as residues are those
of the ring formulas, iteration by iteration. -/

namespace Sys2Proof.Machine

open Sys2Proof

/-! ## The values as residues -/

/-- The working values as residues modulo `2^255 - 19`. -/
def LadderState.quad (l : LadderState) : Ring.Quad (ZMod romP25519) := (l.x2, l.z2, l.x3, l.z3)

theorem LadderState.quad_cswapPairs (l : LadderState) (s : Bool) :
    (l.cswapPairs s).quad = Ring.swapIf s l.quad := by
  cases s <;> rfl

theorem LadderState.quad_arith (x1 : Nat) (l : LadderState) :
    (l.arith x1).quad = Ring.ladderArith (x1 : ZMod romP25519) l.quad := by
  have hsub := zmod_fSub romP25519_pos
  simp only [quad, arith, Ring.ladderArith, zmod_fAdd, zmod_fMul, zmod_fSq, hsub, romA24,
    Nat.cast_ofNat]

/-- The working values and the pending swap, as the ring's iterations carry them. -/
def LadderState.residues (l : LadderState) : Ring.Quad (ZMod romP25519) × Bool := (l.quad, l.swap)

theorem ladderStep_residues (x1 k t : Nat) (l : LadderState) :
    (ladderStep x1 (k.testBit t) l).residues =
      Ring.ladderIter k (x1 : ZMod romP25519) l.residues t := by
  have hquad : (ladderStep x1 (k.testBit t) l).quad =
      ((l.cswapPairs (l.swap ^^ k.testBit t)).arith x1).quad := rfl
  refine Prod.ext ?_ rfl
  rw [LadderState.residues, hquad, LadderState.quad_arith, LadderState.quad_cswapPairs]
  rfl

/-- The iterations for bits `n-1` down to 0 are the ring's. -/
theorem ladderLoop_residues (x1 k n : Nat) (l : LadderState) :
    (ladderLoop x1 k n l).residues =
      (Ring.bitsDown n).foldl (Ring.ladderIter k (x1 : ZMod romP25519)) l.residues := by
  induction n generalizing l with
  | zero => rfl
  | succ n ih => rw [ladderLoop, ih, Ring.bitsDown_succ, List.foldl_cons, ladderStep_residues]

theorem residues_ladderInit (x1 : Nat) :
    LadderState.residues ⟨1, 0, x1, 1, false⟩ = ((1, 0, (x1 : ZMod romP25519), 1), false) := by
  simp [LadderState.residues, LadderState.quad]

/-- The final swap and division, as residues. -/
theorem zmod_ladderQuotient (l : LadderState) :
    ((fMul romP25519 (l.cswapPairs l.swap).x2 (fInv romP25519 (l.cswapPairs l.swap).z2) : Nat) :
      ZMod romP25519) =
      (Ring.swapIf l.swap l.quad).1 * (Ring.swapIf l.swap l.quad).2.1 ^ (romP25519 - 2) := by
  rw [zmod_fMul, zmod_fInv romP25519_le romP25519_pos, ← LadderState.quad_cswapPairs]
  rfl

theorem ladderValue_lt (k x1 : Nat) : ladderValue k x1 < romP25519 :=
  fMul_lt romP25519_pos _ _

/-- The ladder's result is the number of the ring ladder's value (R190). -/
theorem ladderValue_eq (k x1 : Nat) :
    ladderValue k x1 = (Ring.ladder romP25519 k (x1 : ZMod romP25519)).val := by
  refine eq_val_of_cast (ladderValue_lt k x1) ?_
  rw [ladderValue, zmod_ladderQuotient, Ring.ladder, ← residues_ladderInit, ← ladderLoop_residues]
  rfl

/-! ## Bit 255 of the scalar and the corner cases (R190, R192) -/

/-- The iterations for bits `n-1` down to 0 read no bit from `m` up. -/
theorem ladderLoop_mod (x1 k : Nat) {m n : Nat} (h : n ≤ m) (l : LadderState) :
    ladderLoop x1 (k % 2 ^ m) n l = ladderLoop x1 k n l := by
  induction n generalizing l with
  | zero => rfl
  | succ n ih =>
    have hbit : (k % 2 ^ m).testBit n = k.testBit n := by
      rw [Nat.testBit_mod_two_pow, decide_eq_true (by omega : n < m), Bool.true_and]
    rw [ladderLoop, ladderLoop, hbit, ih (by omega)]

theorem ladderValue_mod (k x1 : Nat) : ladderValue (k % 2 ^ 255) x1 = ladderValue k x1 := by
  rw [ladderValue, ladderValue, ladderLoop_mod x1 k le_rfl]

theorem two_lt_romP25519 : 2 < romP25519 := by decide +kernel

theorem ladderValue_zero_scalar (x1 : Nat) : ladderValue 0 x1 = 0 := by
  rw [ladderValue_eq, Ring.ladder_zero_scalar two_lt_romP25519, ZMod.val_zero]

theorem ladderValue_zero_input (k : Nat) : ladderValue k 0 = 0 := by
  rw [ladderValue_eq, Nat.cast_zero, Ring.ladder_zero_input two_lt_romP25519, ZMod.val_zero]

/-! ## The command -/

theorem ladderResult_eq (rd : Reg) (k u : Nat) : ladderResult rd k u =
    ⟨dst rd (ladderValue k (u % 2 ^ 255 % romP25519)),
     some (flagsOf (canonical romP25519 (u % 2 ^ 255))
       (ladderValue k (u % 2 ^ 255 % romP25519)))⟩ := rfl

theorem srcU_eq_uCoord (s : State) (u : PointSrc) : s.srcU u = s.uCoord u := by
  cases u <;> rfl

theorem exec_ladder (rd rs1 : Reg) (u : PointSrc) (s : State) : exec (.ladder rd rs1 u) s =
    .next (s.complete (ladderResult rd (s.src .f25519 rs1) (s.uCoord u))) := by
  rw [← srcU_eq_uCoord]
  rfl

namespace Ladder

/-- Settles O47: the ladder's value is the ring's on the reduced input, whose residue is that of the
masked input, and it fits the register. -/
theorem ladderResult : Obligations.LadderResult := by
  intro rd rs1 u s k um
  have hvalue : ladderValue k (um % romP25519) =
      (Ring.ladder romP25519 k (um : ZMod romP25519)).val := by
    rw [ladderValue_eq, ZMod.natCast_mod]
  have hfit := toNat_ofNat_of_lt_modulus (m := .f25519) (ladderValue_lt k (um % romP25519))
  obtain ⟨t, hexec, hdone, hframe, hreg, hflags⟩ := exec_dst (exec_ladder rd rs1 u s) hfit
  refine ⟨opcNum_encode _, t, hexec, hdone, hframe, hreg.trans hvalue, ?_⟩
  rw [hreg]
  exact hflags

/-- Settles O58: no iteration reads bit 255 of the scalar and the input is masked; scalar 0 and input
0 keep the pair that is divided degenerate. -/
theorem ladderCornerCases : Obligations.LadderCornerCases := by
  intro rd k u
  refine ⟨?_, ?_, ?_⟩
  · rw [ladderResult_eq, ladderResult_eq, Nat.mod_mod, ladderValue_mod]
  · rw [ladderResult_eq, ladderValue_zero_scalar]
    rfl
  · rw [ladderResult_eq, Nat.zero_mod, Nat.zero_mod, ladderValue_zero_input]
    rfl

end Ladder

end Sys2Proof.Machine
end

section
/-! The Ed25519 point formulas (44_ed25519_point.md R210–R212): both end in the same four products,
so both answers are reduced and consistent, and as residues they are the ring formulas. -/

namespace Sys2Proof.Machine

open Sys2Proof

/-! ## The closing products (R210, R211) -/

/-- The last line of R210 and of R211: `(E f* F, G f* H, F f* G, E f* H)`. -/
def extProducts (e f g h : Nat) : Ext :=
  ⟨fMul romP25519 e f, fMul romP25519 g h, fMul romP25519 f g, fMul romP25519 e h⟩

theorem edDbl_eq_extProducts (p : Ext) : ∃ e f g h, edDbl p = extProducts e f g h :=
  ⟨_, _, _, _, rfl⟩

theorem edAdd_eq_extProducts (p q : Ext) : ∃ e f g h, edAdd p q = extProducts e f g h :=
  ⟨_, _, _, _, rfl⟩

/-- All four coordinates are below `2^255 - 19`. -/
def Ext.Reduced (p : Ext) : Prop :=
  p.x < romP25519 ∧ p.y < romP25519 ∧ p.z < romP25519 ∧ p.t < romP25519

theorem reduced_extProducts (e f g h : Nat) : (extProducts e f g h).Reduced :=
  ⟨fMul_lt romP25519_pos _ _, fMul_lt romP25519_pos _ _, fMul_lt romP25519_pos _ _,
    fMul_lt romP25519_pos _ _⟩

theorem reduced_edDbl (p : Ext) : (edDbl p).Reduced := by
  obtain ⟨e, f, g, h, heq⟩ := edDbl_eq_extProducts p
  exact heq ▸ reduced_extProducts e f g h

theorem reduced_edAdd (p q : Ext) : (edAdd p q).Reduced := by
  obtain ⟨e, f, g, h, heq⟩ := edAdd_eq_extProducts p q
  exact heq ▸ reduced_extProducts e f g h

/-- `X * Y` and `Z * T` agree modulo `2^255 - 19`. -/
def Ext.Consistent (p : Ext) : Prop := p.x * p.y % romP25519 = p.z * p.t % romP25519

/-- `X3 * Y3` and `Z3 * T3` are both the product of the four factors. -/
theorem consistent_extProducts (e f g h : Nat) : (extProducts e f g h).Consistent := by
  have hfactors : e * f * (g * h) = f * g * (e * h) := by ring
  simp only [Ext.Consistent, extProducts, fMul, ← Nat.mul_mod, hfactors]

/-! ## The formulas as residues -/

/-- The coordinates as residues modulo `2^255 - 19`. -/
def Ext.quad (p : Ext) : Ring.Quad (ZMod romP25519) := (p.x, p.y, p.z, p.t)

theorem quad_edDbl (p : Ext) : (edDbl p).quad = Ring.edDbl p.quad := by
  have hsub := zmod_fSub romP25519_pos
  simp only [Ext.quad, edDbl, Ring.edDbl, zmod_fAdd, zmod_fMul, zmod_fSq, hsub, Nat.cast_ofNat]

theorem quad_edAdd (p q : Ext) :
    (edAdd p q).quad = Ring.edAdd (romEdD : ZMod romP25519) p.quad q.quad := by
  have hsub := zmod_fSub romP25519_pos
  have hc : (p.t : ZMod romP25519) * 2 * romEdD = 2 * romEdD * p.t := by ring
  have hz : (p.z : ZMod romP25519) * 2 = 2 * p.z := mul_comm _ _
  simp only [Ext.quad, edAdd, Ring.edAdd, zmod_fAdd, zmod_fMul, hsub, Nat.cast_ofNat, hc, hz]

/-! ## Extended points in registers (30_encoding.md R94, R96) -/

theorem quad_srcExt (s : State) (i : Reg) :
    (s.srcExt i).quad = Ring.cast4 romP25519 (s.read4 i) := rfl

theorem canonical_srcExt (s : State) (i : Reg) :
    (s.srcExt i).canonical = Ring.below4 romP25519 (s.read4 i) := by
  simp only [Ext.canonical, canonical, Ring.below4, Bool.decide_and, Bool.and_assoc]
  rfl

/-- Registers that took a reduced point hold the numbers of its residues. -/
theorem nums4_complete_dstExt (s : State) (rd : Reg) {p : Ext} (f : Option Flags)
    (hp : p.Reduced) : (s.complete ⟨dstExt rd p, f⟩).nums4 rd = Ring.vals4 p.quad := by
  have hval {v : Nat} (hv : v < romP25519) :
      (BitVec.ofNat 576 v).toNat = (v : ZMod romP25519).val :=
    (toNat_ofNat_of_lt_modulus (m := .f25519) hv).trans (eq_val_of_cast hv rfl)
  obtain ⟨hx, hy, hz, ht⟩ := hp
  obtain ⟨hregx, hregy, hregz, hregt⟩ := reg_complete_dstExt s rd p f
  rw [State.nums4, hregx, hregy, hregz, hregt, hval hx, hval hy, hval hz, hval ht]
  rfl

/-- What a command leaves that writes a reduced extended point and, as its primary result, `Z`. -/
theorem exec_dstExt {i : Instr} {s : State} {rd : Reg} {p : Ext} {valid : Bool}
    (h : exec i s = .next (s.complete ⟨dstExt rd p, some (flagsOf valid p.z)⟩)) (hp : p.Reduced) :
    ∃ t, exec i s = .next t ∧ t.Completed ∧ s.UnchangedBut t [rd, rd + 1, rd + 2, rd + 3] ∧
      t.nums4 rd = Ring.vals4 p.quad ∧
      t.flags = ⟨false, valid, decide ((t.reg (rd + 2)).toNat = 0)⟩ := by
  refine ⟨_, h, completed_complete _ _, unchangedBut_complete _ _,
    nums4_complete_dstExt s rd _ hp, ?_⟩
  obtain ⟨-, -, hz, -⟩ := hp
  obtain ⟨-, -, hregz, -⟩ := reg_complete_dstExt s rd p (some (flagsOf valid p.z))
  rw [hregz, toNat_ofNat_of_lt_modulus (m := .f25519) hz]
  rfl

/-! ## The two commands -/

theorem exec_eddbl {rd rs1 : Reg} (s : State) (hrd : rd.val ≤ 12) (hrs1 : rs1.val ≤ 12) :
    exec (.eddbl rd rs1) s = .next (s.complete ⟨dstExt rd (edDbl (s.srcExt rs1)),
      some (flagsOf (s.srcExt rs1).canonical (edDbl (s.srcExt rs1)).z)⟩) :=
  finish_of_true _ (by simp [Instr.wellFormed, Reg.beginsExt, hrd, hrs1])

theorem exec_edadd {rd rs1 rs2 : Reg} (s : State) (hrd : rd.val ≤ 12) (hrs1 : rs1.val ≤ 12)
    (hrs2 : rs2.val ≤ 12) :
    exec (.edadd rd rs1 rs2) s = .next (s.complete
      ⟨dstExt rd (edAdd (s.srcExt rs1) (s.srcExt rs2)),
       some (flagsOf ((s.srcExt rs1).canonical && (s.srcExt rs2).canonical)
        (edAdd (s.srcExt rs1) (s.srcExt rs2)).z)⟩) :=
  finish_of_true _ (by simp [Instr.wellFormed, Reg.beginsExt, hrd, hrs1, hrs2])

namespace Edwards

/-- Settles O48: the doubled point is reduced, and its residues are the ring's double of the input. -/
theorem eddblResult : Obligations.EddblResult := by
  intro rd rs1 s hrd hrs1
  rw [← quad_srcExt, ← canonical_srcExt, ← quad_edDbl]
  exact ⟨opcNum_encode _, exec_dstExt (exec_eddbl s hrd hrs1) (reduced_edDbl _)⟩

/-- Settles O49: the sum is reduced, and its residues are the ring's sum of the inputs. -/
theorem edaddResult : Obligations.EdaddResult := by
  intro rd rs1 rs2 s hrd hrs1 hrs2
  rw [← quad_srcExt, ← quad_srcExt, ← canonical_srcExt, ← canonical_srcExt, ← quad_edAdd]
  exact ⟨opcNum_encode _, exec_dstExt (exec_edadd s hrd hrs1 hrs2) (reduced_edAdd _ _)⟩

/-- Settles O60: both formulas end in the same four products. -/
theorem extendedCoordinatesConsistent : Obligations.ExtendedCoordinatesConsistent := by
  intro p q
  obtain ⟨e, f, g, h, hdbl⟩ := edDbl_eq_extProducts p
  obtain ⟨e', f', g', h', hadd⟩ := edAdd_eq_extProducts p q
  rw [hdbl, hadd]
  exact ⟨consistent_extProducts e f g h, consistent_extProducts e' f' g' h'⟩

end Edwards

end Sys2Proof.Machine
end

section
/-! The mixed addition formula over any commutative ring (45_p521_point.md R231) for operands of the
same affine x (R232): `H` is 0, and only powers of `r` are left. -/

namespace Sys2Proof.Ring

open Sys2Proof

variable {R : Type} [CommRing R]

/-- `r` of the mixed addition (R231): twice the difference of the scaled y-coordinates. -/
def jacAddR (p : R × R × R) (q : R × R) : R := 2 * (q.2 * p.2.2 ^ 3 - p.2.1)

theorem jacAddFormula_of_same_x {p : R × R × R} {q : R × R} (hx : q.1 * p.2.2 ^ 2 = p.1) :
    jacAddFormula p q = (jacAddR p q ^ 2, -jacAddR p q ^ 3, 0) := by
  have hh : q.1 * p.2.2 ^ 2 - p.1 = 0 := sub_eq_zero.mpr hx
  simp only [jacAddFormula, jacAddR, hh, Prod.mk.injEq]
  refine ⟨?_, ?_, ?_⟩ <;> ring

theorem jacAddR_of_same_y {p : R × R × R} {q : R × R} (hy : q.2 * p.2.2 ^ 3 = p.2.1) :
    jacAddR p q = 0 := by
  rw [jacAddR, sub_eq_zero.mpr hy, mul_zero]

/-- Off the point at infinity the mixed addition is its formula (R231). -/
theorem jacAdd_of_z_ne_zero [DecidableEq R] {p : R × R × R} (hz : p.2.2 ≠ 0) (q : R × R) :
    jacAdd p q = jacAddFormula p q := if_neg hz

end Sys2Proof.Ring
end

section
/-! The P-521 point formulas (45_p521_point.md R230–R232): both answers are reduced, as residues they are
the ring formulas, and so are the exceptional cases of the mixed addition. -/

namespace Sys2Proof.Machine

open Sys2Proof

/-! ## Reduced points -/

/-- All three coordinates are below `2^521 - 1`. -/
def Jac.Reduced (p : Jac) : Prop := p.x < romP521 ∧ p.y < romP521 ∧ p.z < romP521

theorem reduced_jacDbl (p : Jac) : (jacDbl p).Reduced :=
  ⟨fSub_lt romP521_pos _ _, fSub_lt romP521_pos _ _, fSub_lt romP521_pos _ _⟩

theorem reduced_jacAddFormula (p : Jac) (q : Aff) : (jacAddFormula p q).Reduced :=
  ⟨fSub_lt romP521_pos _ _, fSub_lt romP521_pos _ _, fSub_lt romP521_pos _ _⟩

/-- The select of R231: the second operand, reduced and with `Z = 1`, when `Z1` is 0. -/
theorem jacAdd_eq (p : Jac) (q : Aff) : jacAdd p q =
    if p.z % romP521 = 0 then ⟨q.x % romP521, q.y % romP521, 1⟩ else jacAddFormula p q := by
  simp [jacAdd, cmove_eq]

theorem one_lt_romP521 : 1 < romP521 := by decide +kernel

theorem reduced_jacAdd (p : Jac) (q : Aff) : (jacAdd p q).Reduced := by
  rw [jacAdd_eq]
  split
  case isTrue => exact ⟨Nat.mod_lt _ romP521_pos, Nat.mod_lt _ romP521_pos, one_lt_romP521⟩
  case isFalse => exact reduced_jacAddFormula p q

/-! ## The formulas as residues -/

/-- The coordinates of a Jacobian point as residues modulo `2^521 - 1`. -/
def Jac.triple (p : Jac) : ZMod romP521 × ZMod romP521 × ZMod romP521 := (p.x, p.y, p.z)

/-- The coordinates of an affine point as residues modulo `2^521 - 1`. -/
def Aff.pair (p : Aff) : ZMod romP521 × ZMod romP521 := (p.x, p.y)

/-- The reduced point of given residues. -/
def Jac.ofResidues (t : ZMod romP521 × ZMod romP521 × ZMod romP521) : Jac :=
  ⟨t.1.val, t.2.1.val, t.2.2.val⟩

theorem Jac.Reduced.eq_ofResidues {p : Jac} (hp : p.Reduced) : p = Jac.ofResidues p.triple := by
  obtain ⟨hx, hy, hz⟩ := hp
  rw [Jac.ofResidues, Jac.mk.injEq]
  exact ⟨eq_val_of_cast hx rfl, eq_val_of_cast hy rfl, eq_val_of_cast hz rfl⟩

/-- `Z3` of R230 is `2*Y1*Z1`, and `gamma^2` is `Y1^4`. -/
theorem triple_jacDbl (p : Jac) : (jacDbl p).triple = Ring.jacDbl p.triple := by
  have hsub := zmod_fSub romP521_pos
  simp only [Jac.triple, jacDbl, Ring.jacDbl, zmod_fAdd, zmod_fMul, zmod_fSq, hsub, Nat.cast_ofNat,
    Prod.mk.injEq, true_and]
  constructor <;> ring

/-- `V` of R231 is `4*X1*H^2`, `J` is `4*H^3` and `S2` is `y2*Z1^3`. -/
theorem triple_jacAddFormula (p : Jac) (q : Aff) :
    (jacAddFormula p q).triple = Ring.jacAddFormula p.triple q.pair := by
  have hsub := zmod_fSub romP521_pos
  simp only [Jac.triple, Aff.pair, jacAddFormula, Ring.jacAddFormula, zmod_fAdd, zmod_fMul, zmod_fSq,
    hsub, Nat.cast_ofNat, Prod.mk.injEq, and_true]
  constructor <;> ring

theorem mod_romP521_eq_zero_iff (z : Nat) : z % romP521 = 0 ↔ (z : ZMod romP521) = 0 := by
  rw [ZMod.natCast_eq_zero_iff, Nat.dvd_iff_mod_eq_zero]

theorem triple_jacAdd (p : Jac) (q : Aff) :
    (jacAdd p q).triple = Ring.jacAdd p.triple q.pair := by
  rw [jacAdd_eq, Ring.jacAdd, ← triple_jacAddFormula, apply_ite Jac.triple]
  refine if_congr (mod_romP521_eq_zero_iff p.z) ?_ rfl
  simp [Jac.triple, Aff.pair]

/-- On residues the mixed addition answers the residues of the ring's. -/
theorem jacAdd_of_residues (p : ZMod romP521 × ZMod romP521 × ZMod romP521)
    (q : ZMod romP521 × ZMod romP521) :
    jacAdd (Jac.ofResidues p) ⟨q.1.val, q.2.val⟩ = Jac.ofResidues (Ring.jacAdd p q) := by
  have : NeZero romP521 := ⟨romP521_pos.ne'⟩
  rw [(reduced_jacAdd _ _).eq_ofResidues, triple_jacAdd]
  simp [Jac.triple, Jac.ofResidues, Aff.pair]

/-! ## Jacobian points in registers (30_encoding.md R94, R96) -/

theorem triple_srcJac (s : State) (i : Reg) :
    (s.srcJac i).triple = Ring.cast3 romP521 (s.read3 i) := rfl

theorem pair_srcAff (s : State) (i : Reg) :
    (s.srcAff i).pair = Ring.cast2 romP521 (s.read2 i) := rfl

theorem Jac.canonical_eq (p : Jac) :
    p.canonical = decide (p.x < romP521 ∧ p.y < romP521 ∧ p.z < romP521) := by
  simp only [Jac.canonical, Machine.canonical, Bool.decide_and, Bool.and_assoc]

theorem canonical_jac_and_aff (p : Jac) (q : Aff) :
    (p.canonical && q.canonical) = decide (p.x < romP521 ∧ p.y < romP521 ∧ p.z < romP521 ∧
      q.x < romP521 ∧ q.y < romP521) := by
  simp only [Jac.canonical, Aff.canonical, canonical, Bool.decide_and, Bool.and_assoc]

/-- Registers that took a reduced point hold the numbers of its residues. -/
theorem nums3_complete_dstJac (s : State) (rd : Reg) {p : Jac} (f : Option Flags)
    (hp : p.Reduced) : (s.complete ⟨dstJac rd p, f⟩).nums3 rd = Ring.vals3 p.triple := by
  have hval {v : Nat} (hv : v < romP521) :
      (BitVec.ofNat 576 v).toNat = (v : ZMod romP521).val :=
    (toNat_ofNat_of_lt_modulus (m := .f521) hv).trans (eq_val_of_cast hv rfl)
  obtain ⟨hx, hy, hz⟩ := hp
  obtain ⟨hregx, hregy, hregz⟩ := reg_complete_dstJac s rd p f
  rw [State.nums3, hregx, hregy, hregz, hval hx, hval hy, hval hz]
  rfl

/-- What a command leaves that writes a reduced Jacobian point and, as its primary result, `Z`. -/
theorem exec_dstJac {i : Instr} {s : State} {rd : Reg} {p : Jac} {valid : Bool}
    (h : exec i s = .next (s.complete ⟨dstJac rd p, some (flagsOf valid p.z)⟩)) (hp : p.Reduced) :
    ∃ t, exec i s = .next t ∧ t.Completed ∧ s.UnchangedBut t [rd, rd + 1, rd + 2] ∧
      t.nums3 rd = Ring.vals3 p.triple ∧
      t.flags = ⟨false, valid, decide ((t.reg (rd + 2)).toNat = 0)⟩ := by
  refine ⟨_, h, completed_complete _ _, unchangedBut_complete _ _,
    nums3_complete_dstJac s rd _ hp, ?_⟩
  obtain ⟨-, -, hz⟩ := hp
  obtain ⟨-, -, hregz⟩ := reg_complete_dstJac s rd p (some (flagsOf valid p.z))
  rw [hregz, toNat_ofNat_of_lt_modulus (m := .f521) hz]
  rfl

/-! ## The two commands -/

theorem exec_jdbl {rd rs1 : Reg} (s : State) (hrd : rd.val ≤ 13) (hrs1 : rs1.val ≤ 13) :
    exec (.jdbl rd rs1) s = .next (s.complete ⟨dstJac rd (jacDbl (s.srcJac rs1)),
      some (flagsOf (s.srcJac rs1).canonical (jacDbl (s.srcJac rs1)).z)⟩) :=
  finish_of_true _ (by simp [Instr.wellFormed, Reg.beginsJac, hrd, hrs1])

theorem exec_jadd {rd rs1 rs2 : Reg} (s : State) (hrd : rd.val ≤ 13) (hrs1 : rs1.val ≤ 13)
    (hrs2 : rs2.val ≤ 14) :
    exec (.jadd rd rs1 rs2) s = .next (s.complete
      ⟨dstJac rd (jacAdd (s.srcJac rs1) (s.srcAff rs2)),
       some (flagsOf ((s.srcJac rs1).canonical && (s.srcAff rs2).canonical)
        (jacAdd (s.srcJac rs1) (s.srcAff rs2)).z)⟩) :=
  finish_of_true _ (by simp [Instr.wellFormed, Reg.beginsJac, Reg.beginsPair, hrd, hrs1, hrs2])

namespace P521

/-- Settles O50: the doubled point is reduced, and its residues are the ring's double of the input. -/
theorem jdblResult : Obligations.JdblResult := by
  intro rd rs1 s hrd hrs1 p
  obtain ⟨t, hexec, hdone, hframe, hnums, hflags⟩ :=
    exec_dstJac (exec_jdbl s hrd hrs1) (reduced_jacDbl _)
  rw [triple_jacDbl, triple_srcJac] at hnums
  rw [Jac.canonical_eq] at hflags
  exact ⟨opcNum_encode _, t, hexec, hdone, hframe, hnums, hflags⟩

/-- Settles O51: the sum is reduced, and its residues are the ring's sum of the inputs, whose select
reads `Z1` as a residue. -/
theorem jaddResult : Obligations.JaddResult := by
  intro rd rs1 rs2 s hrd hrs1 hrs2 p q
  obtain ⟨t, hexec, hdone, hframe, hnums, hflags⟩ :=
    exec_dstJac (exec_jadd s hrd hrs1 hrs2) (reduced_jacAdd _ _)
  rw [triple_jacAdd, triple_srcJac, pair_srcAff] at hnums
  rw [canonical_jac_and_aff] at hflags
  exact ⟨opcNum_encode _, t, hexec, hdone, hframe, hnums, hflags⟩

/-- Settles O52: with the same affine x the sum is `(r^2, -r^3, 0)`, and `r` is 0 for equal points. -/
theorem jaddExceptionalCases : Obligations.JaddExceptionalCases := by
  intro p q hz hx
  have hsum : jacAdd (Jac.ofResidues p) ⟨q.1.val, q.2.val⟩ =
      Jac.ofResidues (Ring.jacAddR p q ^ 2, -Ring.jacAddR p q ^ 3, 0) := by
    rw [jacAdd_of_residues, Ring.jacAdd_of_z_ne_zero hz, Ring.jacAddFormula_of_same_x hx]
  refine ⟨fun hy => hsum.trans ?_, fun _ => hsum.trans ?_⟩
  · rw [Ring.jacAddR_of_same_y hy]
    simp [Jac.ofResidues]
  · rw [Jac.ofResidues, Ring.jacAddR, ZMod.val_zero]

end P521

end Sys2Proof.Machine
end

section
/-! One iteration of each scalar multiplication over any commutative ring (46_scalar_mult_engine.md R250,
R251), so that the accumulators are folds of a named function. -/

namespace Sys2Proof.Ring

open Sys2Proof

variable {R : Type} [CommRing R]

/-- Iteration `i` of SMUL521 for scalar `k` (R250). -/
def smulIter [DecidableEq R] (k : Nat) (p : R × R) (r : R × R × R) (i : Nat) : R × R × R :=
  if k.testBit i then jacAdd (jacDbl r) p else jacDbl r

theorem smulAcc_eq_foldl [DecidableEq R] (k : Nat) (p : R × R) :
    smulAcc k p = (bitsDown 521).foldl (smulIter k p) (1, 1, 0) := rfl

/-- Iteration `i` of the EDSMUL commands for scalar `k` (R251). -/
def edsmulIter (d : R) (k : Nat) (p r : Quad R) (i : Nat) : Quad R :=
  if k.testBit i then edAdd d (edDbl r) p else edDbl r

theorem edsmulAcc_eq_foldl (d : R) (k : Nat) (p : Quad R) :
    edsmulAcc d k p = (bitsDown 256).foldl (edsmulIter d k p) (0, 1, 1, 0) := rfl

end Sys2Proof.Ring
end

section
/-! SMUL521 (46_scalar_mult_engine.md R250, R255): the accumulator stays reduced and its residues are those
of the ring's double-and-add, iteration by iteration; the conversion to affine form; scalars 0 and 1. -/

namespace Sys2Proof.Machine

open Sys2Proof

/-! ## The iterations as residues -/

theorem smulStep_false (p : Aff) (r : Jac) : smulStep p false r = jacDbl r := rfl

theorem smulStep_true (p : Aff) (r : Jac) : smulStep p true r = jacAdd (jacDbl r) p := rfl

theorem reduced_smulStep (p : Aff) (b : Bool) (r : Jac) : (smulStep p b r).Reduced := by
  cases b with
  | false => exact reduced_jacDbl r
  | true => exact reduced_jacAdd (jacDbl r) p

theorem triple_smulStep (p : Aff) (k i : Nat) (r : Jac) :
    (smulStep p (k.testBit i) r).triple = Ring.smulIter k p.pair r.triple i := by
  rw [Ring.smulIter]
  cases k.testBit i with
  | false => exact triple_jacDbl r
  | true => rw [smulStep_true, triple_jacAdd, triple_jacDbl, if_pos rfl]

theorem reduced_smulLoop (p : Aff) (k n : Nat) {r : Jac} (hr : r.Reduced) :
    (smulLoop p k n r).Reduced := by
  induction n generalizing r with
  | zero => exact hr
  | succ n ih => exact ih (reduced_smulStep p _ r)

theorem triple_smulLoop (p : Aff) (k n : Nat) (r : Jac) :
    (smulLoop p k n r).triple =
      (Ring.bitsDown n).foldl (Ring.smulIter k p.pair) r.triple := by
  induction n generalizing r with
  | zero => rfl
  | succ n ih => rw [smulLoop, ih, triple_smulStep, Ring.bitsDown_succ, List.foldl_cons]

theorem reduced_smulAcc (k : Nat) (p : Aff) : (smulAcc k p).Reduced :=
  reduced_smulLoop _ k 521 ⟨one_lt_romP521, one_lt_romP521, romP521_pos⟩

/-- The engine's reduction of the point first does not change its residues (R250). -/
theorem triple_smulAcc (k : Nat) (p : Aff) : (smulAcc k p).triple = Ring.smulAcc k p.pair := by
  rw [smulAcc, triple_smulLoop, Ring.smulAcc_eq_foldl]
  simp [Jac.triple, Aff.pair]

theorem Jac.Reduced.z_eq_zero_iff {r : Jac} (hr : r.Reduced) :
    r.z = 0 ↔ (r.z : ZMod romP521) = 0 := by
  obtain ⟨-, -, hz⟩ := hr
  rw [← mod_romP521_eq_zero_iff, Nat.mod_eq_of_lt hz]

/-! ## The affine form (R250) -/

/-- The affine form of Jacobian residues (R250), its inverse the Fermat power. -/
def affineResidues (t : ZMod romP521 × ZMod romP521 × ZMod romP521) : ZMod romP521 × ZMod romP521 :=
  (t.1 * (t.2.2 ^ (romP521 - 2)) ^ 2, t.2.1 * (t.2.2 ^ (romP521 - 2)) ^ 3)

theorem pair_toAffine (r : Jac) : r.toAffine.pair = affineResidues r.triple := by
  have hzi := zmod_fInv romP521_le romP521_pos r.z
  simp only [Aff.pair, Jac.toAffine, affineResidues, Jac.triple, zmod_fMul, zmod_fSq, hzi,
    Prod.mk.injEq, true_and]
  ring

/-- Both coordinates are below `2^521 - 1`. -/
def Aff.Reduced (p : Aff) : Prop := p.x < romP521 ∧ p.y < romP521

theorem reduced_toAffine (r : Jac) : r.toAffine.Reduced :=
  ⟨fMul_lt romP521_pos _ _, fMul_lt romP521_pos _ _⟩

/-- `inv_m(0) = 0` (00_scope.md R8). -/
theorem fInv_zero {m : Nat} (hm : m ≤ 2 ^ 521) (h2 : 2 < m) : fInv m 0 = 0 := by
  rw [fInv_eq hm (by omega), zero_pow (by omega), Nat.zero_mod]

theorem fInv_one {m : Nat} (hm : m ≤ 2 ^ 521) (h1 : 1 < m) : fInv m 1 = 1 := by
  rw [fInv_eq hm (by omega), one_pow, Nat.mod_eq_of_lt h1]

theorem two_lt_romP521 : 2 < romP521 := by decide +kernel

theorem toAffine_of_z_eq_zero {r : Jac} (hz : r.z = 0) : r.toAffine = ⟨0, 0⟩ := by
  simp [Jac.toAffine, hz, fInv_zero romP521_le two_lt_romP521, fMul, fSq]

theorem toAffine_of_z_eq_one {r : Jac} (hz : r.z = 1) :
    r.toAffine = ⟨r.x % romP521, r.y % romP521⟩ := by
  simp [Jac.toAffine, hz, fInv_one romP521_le one_lt_romP521, fMul, fSq]

/-! ## Scalars 0 and 1 (R250) -/

/-- `Z3` of the doubling is `2*Y1*Z1`. -/
theorem z_jacDbl_of_z_eq_zero {r : Jac} (hz : r.z = 0) : (jacDbl r).z = 0 := by
  have hz3 : ((jacDbl r).z : ZMod romP521) = 2 * r.y * r.z :=
    congrArg (·.2.2) (triple_jacDbl r)
  rw [(reduced_jacDbl r).z_eq_zero_iff, hz3, hz, Nat.cast_zero, mul_zero]

theorem jacAdd_of_z_eq_zero {r : Jac} (hz : r.z = 0) (p : Aff) :
    jacAdd r p = ⟨p.x % romP521, p.y % romP521, 1⟩ := by
  rw [jacAdd_eq, hz, Nat.zero_mod, if_pos rfl]

/-- Scalar 0 only doubles the point at infinity. -/
theorem z_smulLoop_zero_scalar (p : Aff) (n : Nat) {r : Jac} (hz : r.z = 0) :
    (smulLoop p 0 n r).z = 0 := by
  induction n generalizing r with
  | zero => exact hz
  | succ n ih =>
    rw [smulLoop, Nat.zero_testBit, smulStep_false]
    exact ih (z_jacDbl_of_z_eq_zero hz)

/-- Scalar 1 doubles the point at infinity, and adds the point to it at bit 0. -/
theorem smulLoop_one_scalar (p : Aff) (n : Nat) {r : Jac} (hz : r.z = 0) :
    smulLoop p 1 (n + 1) r = ⟨p.x % romP521, p.y % romP521, 1⟩ := by
  induction n generalizing r with
  | zero => exact jacAdd_of_z_eq_zero (z_jacDbl_of_z_eq_zero hz) p
  | succ n ih =>
    have hbit : Nat.testBit 1 (n + 1) = false := by simp [Nat.testBit_succ]
    rw [smulLoop, hbit, smulStep_false]
    exact ih (z_jacDbl_of_z_eq_zero hz)

theorem z_smulAcc_zero_scalar (p : Aff) : (smulAcc 0 p).z = 0 := z_smulLoop_zero_scalar _ 521 rfl

theorem toAffine_smulAcc_one_scalar (p : Aff) :
    (smulAcc 1 p).toAffine = ⟨p.x % romP521, p.y % romP521⟩ := by
  rw [smulAcc, smulLoop_one_scalar _ 520 rfl, toAffine_of_z_eq_one rfl]
  simp

/-! ## The command -/

theorem pair_srcPointAff (s : State) (p : PointSrc) :
    (s.srcPointAff p).pair = Ring.cast2 romP521 (s.point2 p) := by
  cases p <;> rfl

theorem canonical_srcPointAff (s : State) (p : PointSrc) : (s.srcPointAff p).canonical =
    decide ((s.point2 p).1 < romP521 ∧ (s.point2 p).2 < romP521) := by
  rw [Bool.decide_and]
  cases p <;> rfl

/-- What a command leaves that writes a reduced affine point: the numbers of its residues. -/
theorem exec_dstAff {i : Instr} {s : State} {rd : Reg} {p : Aff} {f : Flags}
    (h : exec i s = .next (s.complete ⟨dstAff rd p, some f⟩)) (hp : p.Reduced) :
    ∃ t, exec i s = .next t ∧ t.Completed ∧ s.UnchangedBut t [rd, rd + 1] ∧
      t.nums2 rd = (p.pair.1.val, p.pair.2.val) ∧ t.flags = f := by
  obtain ⟨hx, hy⟩ := hp
  obtain ⟨t, hexec, hdone, hframe, hregx, hregy, hflags⟩ :=
    exec_dstPair h (toNat_ofNat_of_lt_modulus (m := .f521) hx)
      (toNat_ofNat_of_lt_modulus (m := .f521) hy)
  exact ⟨t, hexec, hdone, hframe, Prod.ext (hregx.trans (eq_val_of_cast hx rfl))
    (hregy.trans (eq_val_of_cast hy rfl)), hflags⟩

theorem affOk_of_forall_reg {p : PointSrc} (h : ∀ r, p = .reg r → r.val ≤ 14) :
    p.affOk = true := by
  cases p with
  | base => rfl
  | reg r => exact decide_eq_true (h r rfl)

theorem exec_smul521 {rd : Reg} {p : PointSrc} (rs1 : Reg) (s : State) (hrd : rd.val ≤ 14)
    (hp : p.affOk = true) : exec (.smul521 rd rs1 p) s = .next (s.complete
      ⟨dstAff rd (smulAcc (s.src .f521 rs1) (s.srcPointAff p)).toAffine,
       some (flagsOf (s.srcPointAff p).canonical
        (smulAcc (s.src .f521 rs1) (s.srcPointAff p)).z)⟩) :=
  finish_of_true _ (by simp [Instr.wellFormed, Reg.beginsPair, hrd, hp])

end Sys2Proof.Machine
end

section
/-! EDSMUL_CT and EDSMUL_VT (46_scalar_mult_engine.md R251–R255): both run the same iterations, the
accumulator stays reduced and its residues are those of the ring's double-and-add; scalar 0. -/

namespace Sys2Proof.Machine

open Sys2Proof

/-! ## The iterations as residues -/

theorem edsmulStepCt_false (p r : Ext) : edsmulStepCt p false r = edDbl r := rfl

theorem edsmulStepCt_true (p r : Ext) : edsmulStepCt p true r = edAdd (edDbl r) p := rfl

theorem reduced_edsmulStepCt (p : Ext) (b : Bool) (r : Ext) : (edsmulStepCt p b r).Reduced := by
  cases b with
  | false => exact reduced_edDbl r
  | true => exact reduced_edAdd (edDbl r) p

theorem quad_edsmulStepCt (p : Ext) (k i : Nat) (r : Ext) :
    (edsmulStepCt p (k.testBit i) r).quad =
      Ring.edsmulIter (romEdD : ZMod romP25519) k p.quad r.quad i := by
  rw [Ring.edsmulIter]
  cases k.testBit i with
  | false => exact quad_edDbl r
  | true => rw [edsmulStepCt_true, quad_edAdd, quad_edDbl, if_pos rfl]

theorem reduced_edsmulLoopCt (p : Ext) (k n : Nat) {r : Ext} (hr : r.Reduced) :
    (edsmulLoopCt p k n r).Reduced := by
  induction n generalizing r with
  | zero => exact hr
  | succ n ih => exact ih (reduced_edsmulStepCt p _ r)

theorem quad_edsmulLoopCt (p : Ext) (k n : Nat) (r : Ext) :
    (edsmulLoopCt p k n r).quad =
      (Ring.bitsDown n).foldl (Ring.edsmulIter (romEdD : ZMod romP25519) k p.quad) r.quad := by
  induction n generalizing r with
  | zero => rfl
  | succ n ih => rw [edsmulLoopCt, ih, quad_edsmulStepCt, Ring.bitsDown_succ, List.foldl_cons]

theorem reduced_identity : Ext.identity.Reduced := by
  have hone : 1 < romP25519 := by decide +kernel
  exact ⟨romP25519_pos, hone, hone, romP25519_pos⟩

theorem quad_identity : Ext.identity.quad = (0, 1, 1, 0) := by
  simp [Ext.quad, Ext.identity]

theorem quad_reduced (p : Ext) : p.reduced.quad = p.quad := by
  simp [Ext.quad, Ext.reduced]

/-- All 256 iterations from the identity, on the reduced point (R251). -/
theorem quad_edsmulLoopCt_identity (k : Nat) (p : Ext) :
    (edsmulLoopCt p.reduced k 256 Ext.identity).quad =
      Ring.edsmulAcc (romEdD : ZMod romP25519) k p.quad := by
  rw [quad_edsmulLoopCt, quad_identity, quad_reduced, Ring.edsmulAcc_eq_foldl]

/-! ## The variable-time iterations (R252) -/

/-- Skipping the addition and not selecting its result are the same. -/
theorem edsmulStepVt_eq_edsmulStepCt (p : Ext) (b : Bool) (r : Ext) :
    edsmulStepVt p b r = edsmulStepCt p b r := (cmove_eq b _ _).symm

theorem edsmulLoopVt_eq_edsmulLoopCt (p : Ext) (k n : Nat) (r : Ext) :
    edsmulLoopVt p k n r = edsmulLoopCt p k n r := by
  induction n generalizing r with
  | zero => rfl
  | succ n ih => rw [edsmulLoopVt, edsmulLoopCt, edsmulStepVt_eq_edsmulStepCt, ih]

/-! ## Scalar 0 (R251) -/

/-- The identity with `Y` and `Z` negated. -/
def Ext.negIdentity : Ext := ⟨0, romP25519 - 1, romP25519 - 1, 0⟩

theorem edDbl_identity : edDbl Ext.identity = Ext.negIdentity := by decide +kernel

theorem edDbl_negIdentity : edDbl Ext.negIdentity = Ext.negIdentity := by decide +kernel

/-- Scalar 0 only doubles, and every doubling from the first on answers `(0, -1, -1, 0)`. -/
theorem edsmulLoopCt_zero_scalar_negIdentity (p : Ext) (n : Nat) :
    edsmulLoopCt p 0 n Ext.negIdentity = Ext.negIdentity := by
  induction n with
  | zero => rfl
  | succ n ih => rw [edsmulLoopCt, Nat.zero_testBit, edsmulStepCt_false, edDbl_negIdentity, ih]

theorem edsmulLoopCt_zero_scalar_identity (p : Ext) :
    edsmulLoopCt p 0 256 Ext.identity = Ext.negIdentity := by
  rw [edsmulLoopCt, Nat.zero_testBit, edsmulStepCt_false, edDbl_identity,
    edsmulLoopCt_zero_scalar_negIdentity]

/-! ## The two commands -/

theorem quad_srcPointExt (s : State) (p : PointSrc) :
    (s.srcPointExt p).quad = Ring.cast4 romP25519 (s.point4 p) := by
  cases p <;> rfl

theorem canonical_srcPointExt (s : State) (p : PointSrc) :
    (s.srcPointExt p).canonical = Ring.below4 romP25519 (s.point4 p) := by
  simp only [Ext.canonical, canonical, Ring.below4, Bool.decide_and, Bool.and_assoc]
  cases p <;> rfl

theorem extOk_of_forall_reg {p : PointSrc} (h : ∀ r, p = .reg r → r.val ≤ 12) :
    p.extOk = true := by
  cases p with
  | base => rfl
  | reg r => exact decide_eq_true (h r rfl)

theorem exec_edsmulCt {rd : Reg} {p : PointSrc} (rs1 : Reg) (s : State) (hrd : rd.val ≤ 12)
    (hp : p.extOk = true) : exec (.edsmulCt rd rs1 p) s = .next (s.complete
      ⟨dstExt rd (edsmulLoopCt (s.srcPointExt p).reduced (s.src .f25519 rs1) 256 Ext.identity),
       some (flagsOf (s.srcPointExt p).canonical
        (edsmulLoopCt (s.srcPointExt p).reduced (s.src .f25519 rs1) 256 Ext.identity).z)⟩) :=
  finish_of_true _ (by simp [Instr.wellFormed, Reg.beginsExt, hrd, hp])

/-- The two commands have the same range condition and the same meaning (R252). -/
theorem exec_edsmulVt (rd rs1 : Reg) (p : PointSrc) (s : State) :
    exec (.edsmulVt rd rs1 p) s = exec (.edsmulCt rd rs1 p) s := by
  simp only [exec, execEdsmulVt, execEdsmulCt, edsmulLoopVt_eq_edsmulLoopCt, Instr.wellFormed]

end Sys2Proof.Machine
end

section
/-! The statements about the scalar multiplication engine (46_scalar_mult_engine.md R250–R255). -/

namespace Sys2Proof.Machine

open Sys2Proof

namespace ScalarEngine

/-- Settles O53: the affine coordinates are reduced, and their residues are those of the affine form of the
ring's accumulator, whose `Z` is 0 with the engine's. -/
theorem smul521Result : Obligations.Smul521Result := by
  intro rd rs1 p s hrd hp k q acc zi
  have hacc : (smulAcc (s.src .f521 rs1) (s.srcPointAff p)).triple = acc := by
    rw [triple_smulAcc, pair_srcPointAff]
    rfl
  have hzero : (smulAcc (s.src .f521 rs1) (s.srcPointAff p)).z = 0 ↔ acc.2.2 = 0 := by
    rw [(reduced_smulAcc _ _).z_eq_zero_iff, ← hacc]
    rfl
  obtain ⟨t, hexec, hdone, hframe, hnums, hflags⟩ :=
    exec_dstAff (exec_smul521 rs1 s hrd (affOk_of_forall_reg hp)) (reduced_toAffine _)
  refine ⟨opcNum_encode _, t, hexec, hdone, hframe, ?_, ?_⟩
  · rw [hnums, pair_toAffine, hacc, affineResidues]
  · rw [hflags, flagsOf, canonical_srcPointAff, isZero]
    exact congrArg (Flags.mk false _) (decide_eq_decide.mpr hzero)

/-- Settles O54: the accumulator is reduced, and its residues are the ring's accumulator. -/
theorem edsmulCtResult : Obligations.EdsmulCtResult := by
  intro rd rs1 p s hrd hp k q
  rw [← quad_srcPointExt, ← canonical_srcPointExt, ← quad_edsmulLoopCt_identity]
  exact ⟨opcNum_encode _, exec_dstExt (exec_edsmulCt rs1 s hrd (extOk_of_forall_reg hp))
    (reduced_edsmulLoopCt _ _ 256 reduced_identity)⟩

/-- Settles O55: the two commands complete in the same state, since their iterations are equal. -/
theorem edsmulVtEqualsEdsmulCt : Obligations.EdsmulVtEqualsEdsmulCt := by
  intro rd rs1 p s hrd hp
  have hct := exec_edsmulCt rs1 s hrd (extOk_of_forall_reg hp)
  exact ⟨opcNum_encode _, _, (exec_edsmulVt rd rs1 p s).trans hct, hct, completed_complete _ _,
    unchangedBut_complete _ _⟩

/-- Settles O59: until the first 1 bit the iterations only double the start value, which stays at infinity
for SMUL521 and becomes `(0, -1, -1, 0)` for EDSMUL. -/
theorem scalarEngineCornerCases : Obligations.ScalarEngineCornerCases := fun p q =>
  ⟨z_smulAcc_zero_scalar p, toAffine_of_z_eq_zero (z_smulAcc_zero_scalar p),
    toAffine_smulAcc_one_scalar p, edsmulLoopCt_zero_scalar_identity q⟩

end ScalarEngine

end Sys2Proof.Machine
end

section
/-! The control command (47_control.md R270). -/

namespace Sys2Proof.Machine

open Sys2Proof

/-- NOP is always well formed, so from every state it completes with nothing to write (R270). -/
theorem exec_nop (s : State) : exec .nop s = .next (s.complete ⟨[], none⟩) :=
  finish_of_true _ rfl

/-- Settles O36: the completion of a result with no writes and no flags keeps every register and the
previous flags. -/
theorem nopResult : Obligations.NopResult := by
  intro s
  exact ⟨opcNum_encode _, _, exec_nop s, completed_complete _ _, unchangedBut_complete _ _,
    flags_complete_none _ _⟩

end Sys2Proof.Machine
end

section
/-! The issue check by its rules (60_exceptions.md R282–R285, R291): the opcode map's columns as the
conditions on the word's digits, and the first of them that fails. -/

namespace Sys2Proof

open Machine

/-! ## The opcode map's columns (30_encoding.md R99) -/

theorem ofCode_eq_some_iff (c : BitVec 8) (op : Opcode) : Opcode.ofCode c = some op ↔ op.code = c :=
  ⟨code_of_ofCode, fun h => h ▸ ofCode_code op⟩

theorem mem_allOpcodes (op : Opcode) : op ∈ allOpcodes := by cases op <;> decide

theorem listedOpcs_eq : listedOpcs = allOpcodes.map (fun op => op.code.toNat) := rfl

/-- The listed OPC values are those the opcode map names a command for (R100). -/
theorem opcNum_mem_listedOpcs_iff (w : Word) :
    opcNum w ∈ listedOpcs ↔ ∃ op, Opcode.ofCode (fieldOpc w) = some op := by
  simp only [listedOpcs_eq, List.mem_map, mem_allOpcodes, true_and, ofCode_eq_some_iff,
    opcNum_eq_fieldOpc, BitVec.toNat_inj]

theorem acceptsB_eq_false_iff (op : Opcode) :
    op.acceptsB = false ↔ op.code.toNat ∉ [0x40, 0x70, 0x71, 0x72] := by
  cases op <;> decide

theorem fieldReservedTop_eq_zero_iff (w : Word) :
    fieldReservedTop w = 0 ↔ w.toNat / 2 ^ 24 = 0 := by
  rw [← fieldReservedTop_toNat, ← BitVec.toNat_inj]; rfl

/-! ## The conditions of R283 to R285 as the columns state them -/

section
variable {w : Word} {op : Opcode}

/-- The bits the decoder holds against a word of `op` as RESERVED_FIELD (R283). -/
def ReservedBits (op : Opcode) (w : Word) : Prop :=
  fieldReserved11 w = true ∨ fieldReservedTop w ≠ 0 ∨ (fieldB w = true ∧ op.acceptsB = false)

theorem not_reservedBits_iff : ¬ ReservedBits op w ↔
    fieldReserved11 w = false ∧ fieldReservedTop w = 0 ∧ (fieldB w = true → op.acceptsB = true) := by
  simp [ReservedBits]

theorem reservedFieldSet_iff (hop : opcNum w = op.code.toNat) :
    ReservedFieldSet w ↔ ReservedBits op w := by
  rw [ReservedFieldSet, ReservedBits, hop, ← acceptsB_eq_false_iff, Ne, Ne,
    fieldReservedTop_eq_zero_iff, fieldReserved11_eq, fieldB_eq, decide_eq_true_eq, decide_eq_true_eq]

theorem mselNotAccepted_iff (hop : opcNum w = op.code.toNat) :
    MselNotAccepted w ↔ op.acceptsMsel (Msel.ofBits (fieldMsel w)) = false := by
  have hmsel : mselNum w = (fieldMsel w).toNat := (fieldMsel_toNat w).symm
  rw [MselNotAccepted, hop, hmsel]
  generalize fieldMsel w = b
  revert b
  cases op <;> decide

/-- The range column says what R285 lists, once B is known to be 0 where it is not accepted. -/
theorem groupPastEnd_iff (hop : opcNum w = op.code.toNat)
    (hB : fieldB w = true → op.acceptsB = true) : GroupPastEnd w ↔ op.rangeOk w = false := by
  have hrd : w.toNat / 2 ^ 12 % 16 = (fieldRd w).val := (fieldRd_val w).symm
  have hrs1 : w.toNat / 2 ^ 16 % 16 = (fieldRs1 w).val := (fieldRs1_val w).symm
  have hrs2 : w.toNat / 2 ^ 20 % 16 = (fieldRs2 w).val := (fieldRs2_val w).symm
  have hb : w.toNat / 2 ^ 10 % 2 = 0 ↔ fieldB w = false := by
    rw [fieldB_eq, decide_eq_false_iff_not]; omega
  rw [GroupPastEnd, hop, hb, hrd, hrs1, hrs2, ← Bool.not_eq_true (op.rangeOk w), rangeOk_iff]
  have := (fieldRd w).is_le
  have := (fieldRs1 w).is_le
  have := (fieldRs2 w).is_le
  cases hbit : fieldB w with
  | false => cases op <;> simp [Opcode.code, Opcode.rangeMax] <;> omega
  | true =>
    have hacc := hB hbit
    cases op <;> simp [Opcode.code, Opcode.rangeMax, Opcode.acceptsB] at hacc ⊢ <;> omega

end

/-! ## The first failing check (R291) -/

theorem checkFields_of_reservedBits {w : Word} {op : Opcode} (h : ReservedBits op w) :
    checkFields op w = some .reservedField := by
  unfold checkFields
  obtain h | h | ⟨hB, hacc⟩ := h
  · simp [h]
  · have htop : (fieldReservedTop w != 0) = true := bne_iff_ne.mpr h
    rw [htop, Bool.or_true, if_pos rfl]
  · simp [hB, hacc]

theorem checkFields_of_not_reservedBits {w : Word} {op : Opcode} (h : ¬ ReservedBits op w) :
    checkFields op w =
      if op.acceptsMsel (Msel.ofBits (fieldMsel w)) = false then some .illegalMsel
      else if op.rangeOk w = false then some .regRange else none := by
  obtain ⟨h11, htop, hB⟩ := not_reservedBits_iff.mp h
  unfold checkFields
  cases hb : fieldB w with
  | false => simp [h11, htop]
  | true => simp [h11, htop, hB hb]

/-- The condition under which the rule of each error, with the checks before it passed, applies to `w`
(R282–R285); the two busy errors are no outcome of the check (R286, R287). -/
def FirstFailure (w : Word) : ErrCode → Prop
  | .illegalOpcode => opcNum w ∉ listedOpcs
  | .reservedField => opcNum w ∈ listedOpcs ∧ ReservedFieldSet w
  | .illegalMsel => opcNum w ∈ listedOpcs ∧ ¬ ReservedFieldSet w ∧ MselNotAccepted w
  | .regRange =>
    opcNum w ∈ listedOpcs ∧ ¬ ReservedFieldSet w ∧ ¬ MselNotAccepted w ∧ GroupPastEnd w
  | .cmdWhileBusy => False
  | .rfWriteWhileBusy => False

/-- The issue check answers with the first rule that applies, in the order of R291. -/
theorem check_eq_some_iff (w : Word) (e : ErrCode) : check w = some e ↔ FirstFailure w e := by
  have hlisted := opcNum_mem_listedOpcs_iff w
  cases hop : Opcode.ofCode (fieldOpc w) with
  | none =>
    have hcheck : check w = some .illegalOpcode := by rw [check, hop]
    cases e <;> simp [FirstFailure, hcheck, hlisted, hop]
  | some op =>
    have hcheck : check w = checkFields op w := by rw [check, hop]
    have hcode : opcNum w = op.code.toNat := by rw [opcNum_eq_fieldOpc, code_of_ofCode hop]
    have hres := reservedFieldSet_iff hcode
    have hmsel := mselNotAccepted_iff hcode
    by_cases hR : ReservedBits op w
    · rw [hcheck, checkFields_of_reservedBits hR]
      cases e <;> simp [FirstFailure, hlisted, hop, hres, hR]
    · obtain ⟨-, -, hB⟩ := not_reservedBits_iff.mp hR
      have hgroup := groupPastEnd_iff hcode hB
      rw [hcheck, checkFields_of_not_reservedBits hR]
      by_cases hM : op.acceptsMsel (Msel.ofBits (fieldMsel w)) = false
      · cases e <;> simp [FirstFailure, hlisted, hop, hres, hR, hmsel, hM]
      · by_cases hG : op.rangeOk w = false <;> cases e <;>
          simp [FirstFailure, hlisted, hop, hres, hR, hmsel, hM, hgroup, hG]

theorem decode_eq_error_iff_firstFailure (w : Word) (e : ErrCode) :
    decode w = .error e ↔ FirstFailure w e :=
  (decode_eq_error_iff w e).trans (check_eq_some_iff w e)

/-- Settles O4: the first failure is the opcode's. -/
theorem illegalOpcodeOnReservedOpc : Obligations.IllegalOpcodeOnReservedOpc := fun w =>
  decode_eq_error_iff_firstFailure w .illegalOpcode

/-- Settles O5: the first failure is at a reserved field. -/
theorem reservedFieldOnReservedBits : Obligations.ReservedFieldOnReservedBits := fun w =>
  decode_eq_error_iff_firstFailure w .reservedField

/-- Settles O6: the first failure is MSEL's. -/
theorem illegalMselOnListedCases : Obligations.IllegalMselOnListedCases := fun w =>
  decode_eq_error_iff_firstFailure w .illegalMsel

/-- Settles O7: the first failure is a group's range, and no word fails by a busy error. -/
theorem regRangeAfterAllOtherChecks : Obligations.RegRangeAfterAllOtherChecks := fun w =>
  ⟨decode_eq_error_iff_firstFailure w .regRange, decode_eq_error_iff w,
    (check_eq_some_iff w .cmdWhileBusy).mp, (check_eq_some_iff w .rfWriteWhileBusy).mp⟩

end Sys2Proof
end

section
/-! Errors, the two resets, and the progress of the machine: what the error writes and the resets leave
(60_exceptions.md R286–R290, 70_reset_and_hazards.md R320–R325), and that a command in flight completes
in its time (R292, R330). -/

namespace Sys2Proof.Machine

open Sys2Proof

/-! ## Errors (60_exceptions.md R286–R290) -/

/-- A write anywhere in the window while BUSY is dropped and recorded (R287). -/
theorem busWrite_window_busy {s : State} {a : Addr} (v : Word) (hb : s.status.busy = true)
    (h : 512 ≤ a.toNat / 4) : s.busWrite a v = s.raise .rfWriteWhileBusy := by
  obtain ⟨h', -⟩ | ⟨h', -⟩ | ⟨h', -⟩ | ⟨k, j, -, hw⟩ | ⟨-, -, hw⟩ | ⟨h', -⟩ := busWrite_cases s a v
  case inr.inr.inr.inl => rw [hw, writeWindow_busy k j v hb]
  case inr.inr.inr.inr.inl => rw [hw, State.writeWindowReserved, if_pos hb]
  all_goals omega

/-- Settles O25: either write is a `raise`. -/
theorem busyWritesAreDroppedAndRecorded : Obligations.BusyWritesAreDroppedAndRecorded := by
  intro s a v hb
  refine ⟨fun h => ?_, fun h => ?_⟩
  · rw [busWrite_cmd v h, issue_busy v hb]; rfl
  · rw [busWrite_window_busy v hb h]; rfl

/-- Settles O26: a word that does not decode fails its check, and the write is a `raiseIssue`. -/
theorem rejectedCommandSetsDoneAndErr : Obligations.RejectedCommandSetsDoneAndErr := by
  intro s a v e hidle ha hdec
  rw [busWrite_cmd v ha, issue_rejected hidle ((decode_eq_error_iff v e).mp hdec)]
  cases e <;> rfl

/-- Settles O34: every meaning is `finish` on the term's well-formedness. -/
theorem onlyIllFormedTermsAreRefused : Obligations.OnlyIllFormedTermsAreRefused := by
  intro i s
  obtain ⟨r, hr⟩ := exec_eq_finish i s
  refine ⟨fun h => ?_, fun h => ⟨s.complete r, ?_⟩⟩
  · rw [hr, h]; rfl
  · rw [hr, finish_of_true r h]

/-! ## Reset (70_reset_and_hazards.md R320–R325) -/

/-- A reset leaves the state after reset, with the parameters and the outside world's fields kept. -/
theorem doReset_eq (s : State) : s.doReset =
    { State.reset with params := s.params, agenda := s.agenda, returned := s.returned,
                       freeCount := s.freeCount } := rfl

/-- Settles O10: the write is a `doReset`, as the reset input is. -/
theorem softResetClearsEverything : Obligations.SoftResetClearsEverything := by
  intro s a v ha hv
  have hw : s.busWrite a v = s.doReset := by
    obtain ⟨-, hreset⟩ | ⟨hclear, -⟩ := writeCtrl_cases s v
    · rw [busWrite_ctrl v ha, hreset]
    · omega
  exact ⟨hw.trans (doReset_eq s), hw.symm⟩

/-- Settles O11: the state after a reset depends on the parameters and the outside world's fields only. -/
theorem resetForgetsThePast : Obligations.ResetForgetsThePast := by
  intro s₁ s₂ hp
  exact ⟨by rw [doReset_eq s₁, doReset_eq s₂, hp], rfl⟩

/-! ## Progress (60_exceptions.md R292, 70_reset_and_hazards.md R330) -/

/-- The command in flight in a sound state decodes, and its count is within its latency (R33, R41). -/
theorem State.Inv.inflight_decodes {s : State} {f : InFlight} (h : s.Inv) (hf : s.inflight = some f) :
    s.status.busy = true ∧ f.cycles ≤ s.latency s.cmd ∧ ∃ i, decode s.cmd = .ok i := by
  obtain ⟨hflight, hrec, -, -, -⟩ := h
  obtain ⟨-, hcheck, hle⟩ := hrec f hf
  exact ⟨by rw [hflight, hf]; rfl, hle, (check_eq_none_iff _).mp hcheck⟩

/-- Settles O13: when the engine is ready, the word in flight decodes; else the world steps. -/
theorem soundStatesNeverStop : Obligations.SoundStatesNeverStop := by
  intro s h
  cases hr : s.engineReady with
  | true =>
    obtain ⟨-, f, hf, -⟩ := (engineReady_iff s).mp hr
    obtain ⟨-, -, i, hi⟩ := h.inflight_decodes hf
    exact step_next_of_decodable hi
  | false => exact ⟨_, step_of_not_ready hr⟩

/-- A cycle of the command in flight changes nothing that its completion keeps but the count of free
values drawn (R33, R34, R42). -/
theorem exec_count {i : Instr} {s t : State} (h : exec i s = .next t) (g : Option InFlight) :
    exec i { s with inflight := g }.work = .next { t with freeCount := s.freeCount + 1 } := by
  obtain ⟨R, hR⟩ := exec_reads_operands i
  rw [hR, finish_eq_next] at h
  obtain ⟨hwf, rfl⟩ := h
  rw [hR, finish_of_true _ hwf]
  rfl

/-- With nothing pending from outside the command in flight counts down and completes, by induction on
the cycles left. -/
theorem run_completes {i : Instr} (n : Nat) : ∀ {s t : State} {f : InFlight},
    exec i s = .next t → decode s.cmd = .ok i → s.status.busy = true → s.inflight = some f →
    f.cycles = n → s.agenda = [] →
    ∃ k, core.run (n + 1) s = .next { t with freeCount := k } := by
  induction n with
  | zero =>
    intro s t f hexec hd hb hf hn _
    have hstep : step s = .next t := (stepRunsTheDecodedCommand s f i hb hf hn hd).trans hexec
    exact ⟨t.freeCount, run_succ_of_step 0 hstep⟩
  | succ n ih =>
    intro s t f hexec hd hb hf hn ha
    rw [run_succ_of_step _ (step_of_counting hb hf (by omega) ha)]
    obtain ⟨k, hrun⟩ := ih (exec_count hexec (some { f with cycles := f.cycles - 1 })) hd
      hb rfl (by simp [hn]) ha
    exact ⟨k, hrun⟩

/-- Settles O15: the word in flight decodes to a well-formed command, whose completion the countdown
reaches. -/
theorem acceptedCommandCompletesInTime : Obligations.AcceptedCommandCompletesInTime := by
  intro s f h hf ha
  obtain ⟨hb, hle, i, hi⟩ := h.inflight_decodes hf
  obtain ⟨r, hexec⟩ := exec_of_wellFormed s (decode_wellFormed hi)
  obtain ⟨k, hrun⟩ := run_completes f.cycles hexec hi hb hf rfl ha
  exact ⟨hle, i, _, _, hi, hexec, hrun, completed_complete s r, rfl⟩

/-! ## Latency (70_reset_and_hazards.md R330, R331) -/

/-- Every latency but that of EDSMUL_VT is an entry of the table of OPC and MSEL. -/
theorem latency_eq_table {v : Word} (h : opcNum v ≠ 0x72) (s : State) : s.latency v =
    s.params.latency.getD (4 * (fieldOpc v).toNat + (fieldMsel v).toNat) 0 + 1 := by
  rw [State.latency, if_neg]
  intro hvt
  exact h (by rw [opcNum_eq_fieldOpc, hvt]; rfl)

/-- Settles O32: OPC and MSEL are digits of the word's ten low bits, and index the same table. -/
theorem latencyIgnoresOperands : Obligations.LatencyIgnoresOperands := by
  refine ⟨latency_pos, fun s₁ s₂ v₁ v₂ hp hv hvt => ?_⟩
  have hopc : (fieldOpc v₁).toNat = (fieldOpc v₂).toNat := by
    rw [fieldOpc_toNat, fieldOpc_toNat]; omega
  have hmsel : (fieldMsel v₁).toNat = (fieldMsel v₂).toNat := by
    rw [fieldMsel_toNat, fieldMsel_toNat]; omega
  have hvt₂ : opcNum v₂ ≠ 0x72 := by
    rwa [opcNum_eq_fieldOpc, ← hopc, ← opcNum_eq_fieldOpc]
  rw [latency_eq_table hvt, latency_eq_table hvt₂, hp, hopc, hmsel]

end Sys2Proof.Machine
end
